-- ==== Sys2Proof/Word.lean ====
section
/-! DEFINITION. The word and byte types of IITB-RISC-23 and the plainest facts about their sizes.

Spec: 00_scope.md R5 (every register, every datum moved and every address is 16 bits; the address
unit is the byte) and R7 (all arithmetic is modulo 2^16, which is `BitVec 16` arithmetic). -/

namespace Sys2Proof

/-- A 16-bit word: a register value, a memory word, an address or an instruction (R5, R7). -/
abbrev Word := BitVec 16

/-- The unit a byte address names (R40). -/
abbrev Byte := BitVec 8

/-- The number of byte addresses, 0x0000 to 0xFFFF (R40). -/
abbrev addressSpace : Nat := 65536

end Sys2Proof
end

