-- ==== Sys2Proof/Config.lean ====
section
/-! DEFINITION. What the spec leaves open and a machine fixes: the five parameters of 00_scope.md R6,
as the fields of one configuration, and the one free value of the model.

A configuration is plain data. `Machine.State` carries one, no instruction changes it, and every
statement about all states is therefore a statement about every value of every parameter. -/

namespace Sys2Proof

/-- BYTE_ORDER (R6, R43): which byte of a word stands at the lower byte address. -/
inductive ByteOrder where
  | little
  | big
  deriving DecidableEq, Repr

/-- A run of consecutive words of the address space, named by its first and its last even address. -/
structure WordRange where
  first : Word
  last : Word
  deriving DecidableEq, Repr

/-- The parameters the source leaves open (R6); 92_eei_decisions.md D9, D11, D21, D22, D25. -/
structure Config where
  /-- RESET_PC: the value of the PC after reset, an even address (R32). -/
  resetPc : Word
  /-- CMP_SIGNED: whether BLT and BLE compare as two's-complement signed numbers (R180). -/
  cmpSigned : Bool
  /-- BYTE_ORDER: the place of a word's two bytes (R43); no program can observe it. -/
  byteOrder : ByteOrder
  /-- MEM_MAP: the words backed by storage (R47), as ranges; any set of even addresses is a list of
  one-word ranges. -/
  memMap : List WordRange
  /-- HALT_PC: the address at whose first arrival a run is taken to have ended, or none (R242). -/
  haltPc : Option Word
  deriving DecidableEq, Repr

/-- Whether the word at an even address is backed by storage: `addr in MEM_MAP` of R42. -/
def Config.mapped (c : Config) (a : Word) : Bool :=
  c.memMap.any fun r => decide (r.first ≤ a) && decide (a ≤ r.last)

/-- What R6 asks of the values: RESET_PC is an even address of MEM_MAP, HALT_PC is even if there is
one, and MEM_MAP is named by even addresses. -/
def Config.wf (c : Config) : Bool :=
  !c.resetPc.getLsbD 0 && c.mapped c.resetPc
    && (match c.haltPc with
        | none => true
        | some h => !h.getLsbD 0)
    && c.memMap.all fun r => !r.first.getLsbD 0 && !r.last.getLsbD 0

/-- The word at an even address that neither the host nor a store has written: an unconstrained value,
one per address (R32 and 93_implementation_defined.md U11, "any value"). It has no body, so nothing can
be proved of its value. Only a data read meets it; a fetch refuses instead. Assumption log 3. -/
opaque Config.initialWord : Nat → Word

end Sys2Proof
end

