-- ==== Sys2Proof/Syntax.lean ====
section
/-! DEFINITION. The instruction set of IITB-RISC-23: 26 mnemonics (00_scope.md R2), one constructor
each, in the order of the encoding table (30_encoding.md R66).

The arguments of a constructor are the fields of its word, in the word's order RA, RB, RC (not in
the order of the assembly line, R75). The Complement bit K and the Condition field CZ select the
mnemonic (R65), so the constructor stands for them. -/

namespace Sys2Proof

/-- The eight general registers (10_state.md R20). R0 is the program counter (R21). -/
inductive Reg where
  | r0
  | r1
  | r2
  | r3
  | r4
  | r5
  | r6
  | r7
  deriving DecidableEq, Repr

/-- An instruction with its fields: registers by name, immediates and masks as the bits of their
field (30_encoding.md R61 to R63, R67 to R69). -/
inductive Instr where
  -- ADD group, opcode 0001, R format (41_add.md R100 to R108)
  | ada (ra rb rc : Reg)
  | adc (ra rb rc : Reg)
  | adz (ra rb rc : Reg)
  | awc (ra rb rc : Reg)
  | aca (ra rb rc : Reg)
  | acc (ra rb rc : Reg)
  | acz (ra rb rc : Reg)
  | acw (ra rb rc : Reg)
  -- ADI, opcode 0000, I format (R109)
  | adi (ra rb : Reg) (imm6 : BitVec 6)
  -- NAND group, opcode 0010, R format (42_nand.md R120 to R126)
  | ndu (ra rb rc : Reg)
  | ndc (ra rb rc : Reg)
  | ndz (ra rb rc : Reg)
  | ncu (ra rb rc : Reg)
  | ncc (ra rb rc : Reg)
  | ncz (ra rb rc : Reg)
  -- LLI, LW, SW (43_lli_load_store.md R140 to R143)
  | lli (ra : Reg) (imm9 : BitVec 9)
  | lw (ra rb : Reg) (imm6 : BitVec 6)
  | sw (ra rb : Reg) (imm6 : BitVec 6)
  -- LM, SM: bit 8 of the word is fixed at 0, so the operand is the 8-bit mask (R69, R160)
  | lm (ra : Reg) (mask8 : BitVec 8)
  | sm (ra : Reg) (mask8 : BitVec 8)
  -- branches (45_branch.md R180 to R183)
  | beq (ra rb : Reg) (imm6 : BitVec 6)
  | blt (ra rb : Reg) (imm6 : BitVec 6)
  | ble (ra rb : Reg) (imm6 : BitVec 6)
  -- jumps (46_jump.md R200 to R202); bits 5:0 of JLR are fixed at 0
  | jal (ra : Reg) (imm9 : BitVec 9)
  | jlr (ra rb : Reg)
  | jri (ra : Reg) (imm9 : BitVec 9)
  deriving DecidableEq, Repr

end Sys2Proof
end

