-- ==== Sys2Proof/WellFormed.lean ====
section
/-! DEFINITION. Which instructions are well formed.

The widths of immediates and masks and the range of register numbers stand in the types of `Instr`,
so every term is encodable. What is left to check is the one operand combination to which the spec
gives no meaning: JAL or JLR naming R0 as link register, which would write the PC twice
(10_state.md R22, 46_jump.md R200 and R201). Such a term decodes and encodes like any other; its
meaning refuses it. -/

namespace Sys2Proof

/-- A link register of JAL or JLR must not be R0 (R22). -/
def Reg.linkOk (r : Reg) : Bool := decide (r ≠ .r0)

/-- The instruction is one to which the spec gives a meaning. -/
def Instr.wellFormed : Instr → Bool
  | .ada _ _ _ => true
  | .adc _ _ _ => true
  | .adz _ _ _ => true
  | .awc _ _ _ => true
  | .aca _ _ _ => true
  | .acc _ _ _ => true
  | .acz _ _ _ => true
  | .acw _ _ _ => true
  | .adi _ _ _ => true
  | .ndu _ _ _ => true
  | .ndc _ _ _ => true
  | .ndz _ _ _ => true
  | .ncu _ _ _ => true
  | .ncc _ _ _ => true
  | .ncz _ _ _ => true
  | .lli _ _ => true
  | .lw _ _ _ => true
  | .sw _ _ _ => true
  | .lm _ _ => true
  | .sm _ _ => true
  | .beq _ _ _ => true
  | .blt _ _ _ => true
  | .ble _ _ _ => true
  | .jal ra _ => ra.linkOk
  | .jlr ra _ => ra.linkOk
  | .jri _ _ => true

end Sys2Proof
end

