-- ==== Sys2Proof/Decode.lean ====
section
/-! DEFINITION. Between words, bytes and instructions (30_encoding.md): the fields of a word, the
decoder (total, every reserved word rejected by name), the encoder, the opcode table's match and
mask values, and the layout of a word as two bytes. -/

namespace Sys2Proof

/-! ### Register numbers (R70) -/

/-- The number a register field holds for a register, 0 to 7. -/
def Reg.num : Reg → Nat
  | .r0 => 0
  | .r1 => 1
  | .r2 => 2
  | .r3 => 3
  | .r4 => 4
  | .r5 => 5
  | .r6 => 6
  | .r7 => 7

/-- The 3-bit field that names a register. -/
def Reg.code (r : Reg) : BitVec 3 := BitVec.ofNat 3 r.num

/-- The register a 3-bit field names. -/
def Reg.ofCode (c : BitVec 3) : Reg :=
  match c.toNat with
  | 0 => .r0
  | 1 => .r1
  | 2 => .r2
  | 3 => .r3
  | 4 => .r4
  | 5 => .r5
  | 6 => .r6
  | _ => .r7

/-! ### The fields of a word (R61, R62, R63, R71) -/

/-- Bits 15:12. -/
def opcodeField (w : Word) : BitVec 4 := w.extractLsb' 12 4

/-- Bits 11:9. -/
def raField (w : Word) : Reg := Reg.ofCode (w.extractLsb' 9 3)

/-- Bits 8:6. -/
def rbField (w : Word) : Reg := Reg.ofCode (w.extractLsb' 6 3)

/-- Bits 5:3. -/
def rcField (w : Word) : Reg := Reg.ofCode (w.extractLsb' 3 3)

/-- Bits 2:0, the Complement bit K followed by the Condition field CZ: `K ++ CZ` of R71. -/
def kczField (w : Word) : BitVec 3 := w.extractLsb' 0 3

/-- Bits 5:0. -/
def imm6Field (w : Word) : BitVec 6 := w.extractLsb' 0 6

/-- Bits 8:0. -/
def imm9Field (w : Word) : BitVec 9 := w.extractLsb' 0 9

/-- Bits 7:0, the register mask of LM and SM (R69). -/
def mask8Field (w : Word) : BitVec 8 := w.extractLsb' 0 8

/-- Bit 8, which LM and SM fix at 0 (R69). -/
def multipleBit (w : Word) : Bool := w.getLsbD 8

/-! ### Decoding (R71, R72) -/

/-- Why a word is none of the 26 instructions: the five rows of R72's table of reserved words, and
the two ways a byte sequence can be too short to hold a word. -/
inductive Undecodable where
  /-- Opcode 1011. -/
  | opcode1011
  /-- Opcode 1110. -/
  | opcode1110
  /-- Opcode 0010 with CZ = 11. -/
  | nandWithCarry
  /-- Opcode 1101 with bits 5:0 not zero. -/
  | jlrLowBits
  /-- Opcode 0110 or 0111 with bit 8 = 1. -/
  | multipleBit8
  /-- Fewer than two bytes: not a word at all (R60). -/
  | truncated
  deriving DecidableEq, Repr

/-- The eight instructions of opcode 0001, by `K ++ CZ` (R65, R71). -/
def decodeAdd (w : Word) : Instr :=
  match (kczField w).toNat with
  | 0b000 => .ada (raField w) (rbField w) (rcField w)
  | 0b010 => .adc (raField w) (rbField w) (rcField w)
  | 0b001 => .adz (raField w) (rbField w) (rcField w)
  | 0b011 => .awc (raField w) (rbField w) (rcField w)
  | 0b100 => .aca (raField w) (rbField w) (rcField w)
  | 0b110 => .acc (raField w) (rbField w) (rcField w)
  | 0b101 => .acz (raField w) (rbField w) (rcField w)
  | _ => .acw (raField w) (rbField w) (rcField w)          -- 0b111

/-- The six instructions of opcode 0010, by `K ++ CZ`; CZ = 11 is reserved (R65, R71, R127). -/
def decodeNand (w : Word) : Except Undecodable Instr :=
  match (kczField w).toNat with
  | 0b000 => .ok (.ndu (raField w) (rbField w) (rcField w))
  | 0b010 => .ok (.ndc (raField w) (rbField w) (rcField w))
  | 0b001 => .ok (.ndz (raField w) (rbField w) (rcField w))
  | 0b100 => .ok (.ncu (raField w) (rbField w) (rcField w))
  | 0b110 => .ok (.ncc (raField w) (rbField w) (rcField w))
  | 0b101 => .ok (.ncz (raField w) (rbField w) (rcField w))
  | _ => .error .nandWithCarry                             -- 0b011 and 0b111

/-- The decoder: a total function from words to one of the 26 instructions with its fields, or to
the reason the word is reserved (R71, R72). -/
def decode (w : Word) : Except Undecodable Instr :=
  match (opcodeField w).toNat with
  | 0b0000 => .ok (.adi (raField w) (rbField w) (imm6Field w))
  | 0b0001 => .ok (decodeAdd w)
  | 0b0010 => decodeNand w
  | 0b0011 => .ok (.lli (raField w) (imm9Field w))
  | 0b0100 => .ok (.lw (raField w) (rbField w) (imm6Field w))
  | 0b0101 => .ok (.sw (raField w) (rbField w) (imm6Field w))
  | 0b0110 => if multipleBit w then .error .multipleBit8 else .ok (.lm (raField w) (mask8Field w))
  | 0b0111 => if multipleBit w then .error .multipleBit8 else .ok (.sm (raField w) (mask8Field w))
  | 0b1000 => .ok (.beq (raField w) (rbField w) (imm6Field w))
  | 0b1001 => .ok (.blt (raField w) (rbField w) (imm6Field w))
  | 0b1010 => .ok (.ble (raField w) (rbField w) (imm6Field w))
  | 0b1011 => .error .opcode1011
  | 0b1100 => .ok (.jal (raField w) (imm9Field w))
  | 0b1101 => if imm6Field w = 0 then .ok (.jlr (raField w) (rbField w)) else .error .jlrLowBits
  | 0b1110 => .error .opcode1110
  | _ => .ok (.jri (raField w) (imm9Field w))              -- 0b1111

/-! ### A word as two bytes (R43) -/

/-- The two bytes of a word, the one at the lower address first. -/
def splitWord (o : ByteOrder) (w : Word) : Byte × Byte :=
  match o with
  | .little => (w.extractLsb' 0 8, w.extractLsb' 8 8)
  | .big => (w.extractLsb' 8 8, w.extractLsb' 0 8)

/-- The word of two bytes, `lower` standing at the lower address: `byte[a+1] ++ byte[a]` for little
and `byte[a] ++ byte[a+1]` for big (R43). -/
def joinWord (o : ByteOrder) (lower upper : Byte) : Word :=
  match o with
  | .little => upper ++ lower
  | .big => lower ++ upper

/-- Decoding a byte sequence: every instruction is one word, two bytes (R60); the bytes after it are
given back. -/
def decodeBytes (o : ByteOrder) : List Byte → Except Undecodable (Instr × List Byte)
  | lower :: upper :: rest =>
    match decode (joinWord o lower upper) with
    | .ok i => .ok (i, rest)
    | .error e => .error e
  | [_] => .error .truncated
  | [] => .error .truncated

/-- The word of an opcode-table row whose `nbits` bits are `w`, the bits above them 0. -/
def tableWord (nbits w : Nat) : Word := BitVec.ofNat 16 (w % 2 ^ nbits)

/-- The instruction the decoder reads from the bytes of such a word. Which byte order lays the word
out makes no difference, since the decoder reads it back in the same order (R43). -/
def decodeTableWord (nbits w : Nat) : Option Instr :=
  match decodeBytes .little
      [(splitWord .little (tableWord nbits w)).1, (splitWord .little (tableWord nbits w)).2] with
  | .ok (i, _) => some i
  | .error _ => none

/-! ### Encoding (R74) -/

/-- `op ++ RA ++ RB ++ RC ++ K ++ CZ`, with `K ++ CZ` given as its three bits. -/
def encR (op : BitVec 4) (ra rb rc : Reg) (kcz : BitVec 3) : Word :=
  op ++ ra.code ++ rb.code ++ rc.code ++ kcz

/-- `op ++ RA ++ RB ++ imm6`. -/
def encI (op : BitVec 4) (ra rb : Reg) (imm6 : BitVec 6) : Word :=
  op ++ ra.code ++ rb.code ++ imm6

/-- `op ++ RA ++ imm9`. -/
def encJ (op : BitVec 4) (ra : Reg) (imm9 : BitVec 9) : Word :=
  op ++ ra.code ++ imm9

/-- The word of an instruction, row by row of R66. -/
def encode : Instr → Word
  | .ada ra rb rc => encR 0b0001#4 ra rb rc 0b000#3
  | .adc ra rb rc => encR 0b0001#4 ra rb rc 0b010#3
  | .adz ra rb rc => encR 0b0001#4 ra rb rc 0b001#3
  | .awc ra rb rc => encR 0b0001#4 ra rb rc 0b011#3
  | .aca ra rb rc => encR 0b0001#4 ra rb rc 0b100#3
  | .acc ra rb rc => encR 0b0001#4 ra rb rc 0b110#3
  | .acz ra rb rc => encR 0b0001#4 ra rb rc 0b101#3
  | .acw ra rb rc => encR 0b0001#4 ra rb rc 0b111#3
  | .adi ra rb imm6 => encI 0b0000#4 ra rb imm6
  | .ndu ra rb rc => encR 0b0010#4 ra rb rc 0b000#3
  | .ndc ra rb rc => encR 0b0010#4 ra rb rc 0b010#3
  | .ndz ra rb rc => encR 0b0010#4 ra rb rc 0b001#3
  | .ncu ra rb rc => encR 0b0010#4 ra rb rc 0b100#3
  | .ncc ra rb rc => encR 0b0010#4 ra rb rc 0b110#3
  | .ncz ra rb rc => encR 0b0010#4 ra rb rc 0b101#3
  | .lli ra imm9 => encJ 0b0011#4 ra imm9
  | .lw ra rb imm6 => encI 0b0100#4 ra rb imm6
  | .sw ra rb imm6 => encI 0b0101#4 ra rb imm6
  | .lm ra mask8 => encJ 0b0110#4 ra (0#1 ++ mask8)
  | .sm ra mask8 => encJ 0b0111#4 ra (0#1 ++ mask8)
  | .beq ra rb imm6 => encI 0b1000#4 ra rb imm6
  | .blt ra rb imm6 => encI 0b1001#4 ra rb imm6
  | .ble ra rb imm6 => encI 0b1010#4 ra rb imm6
  | .jal ra imm9 => encJ 0b1100#4 ra imm9
  | .jlr ra rb => encI 0b1101#4 ra rb 0#6
  | .jri ra imm9 => encJ 0b1111#4 ra imm9

/-- The bytes of an instruction as memory holds them. -/
def encodeBytes (o : ByteOrder) (i : Instr) : List Byte :=
  [(splitWord o (encode i)).1, (splitWord o (encode i)).2]

/-! ### The opcode table (R66) -/

/-- A row of R66: a word `w` is the instruction exactly when `w & mask = value`. -/
structure OpcodeRow where
  mnemonic : String
  value : Word
  mask : Word
  deriving DecidableEq, Repr

/-- The row of an instruction. -/
def Instr.row : Instr → OpcodeRow
  | .ada _ _ _ => ⟨"ADA", 0x1000#16, 0xF007#16⟩
  | .adc _ _ _ => ⟨"ADC", 0x1002#16, 0xF007#16⟩
  | .adz _ _ _ => ⟨"ADZ", 0x1001#16, 0xF007#16⟩
  | .awc _ _ _ => ⟨"AWC", 0x1003#16, 0xF007#16⟩
  | .aca _ _ _ => ⟨"ACA", 0x1004#16, 0xF007#16⟩
  | .acc _ _ _ => ⟨"ACC", 0x1006#16, 0xF007#16⟩
  | .acz _ _ _ => ⟨"ACZ", 0x1005#16, 0xF007#16⟩
  | .acw _ _ _ => ⟨"ACW", 0x1007#16, 0xF007#16⟩
  | .adi _ _ _ => ⟨"ADI", 0x0000#16, 0xF000#16⟩
  | .ndu _ _ _ => ⟨"NDU", 0x2000#16, 0xF007#16⟩
  | .ndc _ _ _ => ⟨"NDC", 0x2002#16, 0xF007#16⟩
  | .ndz _ _ _ => ⟨"NDZ", 0x2001#16, 0xF007#16⟩
  | .ncu _ _ _ => ⟨"NCU", 0x2004#16, 0xF007#16⟩
  | .ncc _ _ _ => ⟨"NCC", 0x2006#16, 0xF007#16⟩
  | .ncz _ _ _ => ⟨"NCZ", 0x2005#16, 0xF007#16⟩
  | .lli _ _ => ⟨"LLI", 0x3000#16, 0xF000#16⟩
  | .lw _ _ _ => ⟨"LW", 0x4000#16, 0xF000#16⟩
  | .sw _ _ _ => ⟨"SW", 0x5000#16, 0xF000#16⟩
  | .lm _ _ => ⟨"LM", 0x6000#16, 0xF100#16⟩
  | .sm _ _ => ⟨"SM", 0x7000#16, 0xF100#16⟩
  | .beq _ _ _ => ⟨"BEQ", 0x8000#16, 0xF000#16⟩
  | .blt _ _ _ => ⟨"BLT", 0x9000#16, 0xF000#16⟩
  | .ble _ _ _ => ⟨"BLE", 0xA000#16, 0xF000#16⟩
  | .jal _ _ => ⟨"JAL", 0xC000#16, 0xF000#16⟩
  | .jlr _ _ => ⟨"JLR", 0xD000#16, 0xF03F#16⟩
  | .jri _ _ => ⟨"JRI", 0xF000#16, 0xF000#16⟩

end Sys2Proof
end

