-- ==== Sys2Proof/Machine/Memory.lean ====
section
/-! DEFINITION. Memory as data (10_state.md R30, 20_memory.md R40, R42): the bytes that the host or a
store has written, as address and byte pairs with strictly rising addresses.

An unlisted address has no value here: nothing has written it. So every entry says something and
equal memories are equal lists. What a program gets when it reads such a byte is said in
`State.byteAt` (a data read: an unconstrained value) and `State.fetchWord` (a fetch: a refusal). -/

namespace Sys2Proof.Machine

/-- The written bytes of the address space. -/
abbrev Memory := List Host.Cell

/-- The canonical form: addresses strictly rising, all inside the 2^16 bytes of R40. -/
abbrev Memory.wf (m : Memory) : Prop :=
  m.Pairwise (fun x y => x.1 < y.1) ∧ ∀ x ∈ m, x.1 < addressSpace

/-- The byte at an address, or none where nothing has written it. -/
def Memory.read? : Memory → Nat → Option Byte
  | [], _ => none
  | (b, v) :: rest, a => if a = b then some v else Memory.read? rest a

/-- The memory with one byte replaced. -/
def Memory.write : Memory → Nat → Byte → Memory
  | [], a, v => [(a, v)]
  | (b, w) :: rest, a, v =>
    if a < b then (a, v) :: (b, w) :: rest
    else if a = b then (a, v) :: rest
    else (b, w) :: Memory.write rest a v

/-- The other byte of the word an address lies in: 2k for 2k+1 and 2k+1 for 2k. -/
def partnerByte (a : Nat) : Nat := if a % 2 = 0 then a + 1 else a - 1

/-- Words are written whole: a written byte's partner is written too. Every access moves both bytes
of one aligned word (R41), so nothing can observe a word half written (R46). -/
abbrev Memory.whole (m : Memory) : Prop :=
  ∀ x ∈ m, (m.read? (partnerByte x.1)).isSome = true

end Sys2Proof.Machine
end

