-- ==== Sys2Proof/Machine/Params.lean ====
section
/-! DEFINITION. The values of the spec's open parameters (00_scope.md R6) with which
`Machine.State.reset` starts. RESET_PC and MEM_MAP have the values the spec suggests; the other three
are chosen (assumption log 1 and 2). No statement rests on any of them. -/

namespace Sys2Proof.Machine

/-- RESET_PC 0x0000 and MEM_MAP every even address are the suggested values of 92_eei_decisions.md.
CMP_SIGNED, BYTE_ORDER and HALT_PC have none there and are a DESIGN CHOICE, unsafe. -/
def resetConfig : Config where
  resetPc := 0x0000#16
  cmpSigned := false
  byteOrder := .little
  memMap := [⟨0x0000#16, 0xFFFE#16⟩]
  haltPc := none

end Sys2Proof.Machine
end

