-- ==== Sys2Proof/Machine/State.lean ====
section
/-! DEFINITION. The machine's state, the reasons a step can stop, and the state after reset.

The architectural state is all of 10_state.md: R0 as the program counter, R1 to R7, the two flags of
the condition code register, memory. There is nothing else (R29, R31): no mode, no control register,
no saved state of a trap, no reservation. -/

namespace Sys2Proof.Machine

/-- The state of IITB-RISC-23 between two steps. -/
structure State where
  /-- The program counter, which is register R0 (R21). -/
  pc : Word
  /-- R1 to R7, plain storage (R20). -/
  r1 : Word
  r2 : Word
  r3 : Word
  r4 : Word
  r5 : Word
  r6 : Word
  r7 : Word
  /-- The carry flag (R26). -/
  c : Bool
  /-- The zero flag (R26). -/
  z : Bool
  /-- Memory (R30). -/
  mem : Memory
  /-- The parameters of the machine (R6); no step changes them. -/
  cfg : Config
  deriving DecidableEq, Repr

/-- The hardware has no exception, trap or fault (60_exceptions.md R220; R11: a step has two outcomes,
a next state or a refusal), so there is no reason to fault: the type has no value. Safe. -/
inductive Fault where
  deriving DecidableEq, Repr

/-- The refusals of 60_exceptions.md R221, its complete list. A refused step has no next state and
writes nothing. Every one is safe: where the hardware does something that no source tells, nothing
can be proved of it. -/
inductive Refusal where
  /-- An instruction without a meaning in this model; raised by no arm. Safe. -/
  | notModelled (mnemonic : String)
  /-- `MisalignedFetch`: the step, when the PC is odd (R25). Safe. -/
  | misalignedFetch
  /-- `UnmappedAccess`: the step at fetch, and LW, SW, LM, SM, at an address outside MEM_MAP (R47).
  Safe. -/
  | unmappedAccess
  /-- `ReservedEncoding`: the step, when the word is none of the 26 instructions (R72); the NAND
  group's common rule with CZ = 11 (R120), which no instruction reaches. Safe. -/
  | reservedEncoding
  /-- `DoublePcWrite`: JAL and JLR with RA = R0 (R22, R200, R201). Safe. -/
  | doublePcWrite
  /-- `MisalignedAccess`: LW, SW, LM, SM at an odd address (R44). Safe. -/
  | misalignedAccess
  /-- `UnwrittenRead`: the step, when it would fetch a word that nothing has written (R32, U11). Data
  reads do not raise it. Safe. -/
  | unwrittenRead
  /-- `FetchAfterStore`: raised only by `Safety.cautiousStep`, never by `step` (R53, U12). Safe. -/
  | fetchAfterStore
  deriving DecidableEq, Repr

/-- The state after reset for given parameters and given contents of what reset leaves unspecified
(R32, R240): the PC is RESET_PC; R1 to R7, the flags and memory are whatever they are. -/
def State.resetOf (cfg : Config) (x1 x2 x3 x4 x5 x6 x7 : Word) (c z : Bool) (mem : Memory) : State where
  pc := cfg.resetPc
  r1 := x1
  r2 := x2
  r3 := x3
  r4 := x4
  r5 := x5
  r6 := x6
  r7 := x7
  c := c
  z := z
  mem := mem
  cfg := cfg

/-- The machine right after reset. The PC is RESET_PC; the spec gives R1 to R7, C and Z no value
(R32), and the model takes zero and clear for them (DESIGN CHOICE, unsafe; assumption log 4). Memory
lists nothing: a program is loaded by the host before reset is released (R243). -/
def State.reset : State := State.resetOf resetConfig 0 0 0 0 0 0 0 false false []

end Sys2Proof.Machine
end

