-- ==== Sys2Proof/Machine/Ops.lean ====
section
/-! DEFINITION. The shared operations over registers, flags and memory (00_scope.md R8 and R9,
20_memory.md R42). Every instruction reads its sources in the state before it (R8, D19) and writes
through these.

There is no operation for taking an exception or returning from one: the hardware has neither
(60_exceptions.md R220, R224, R225). -/

namespace Sys2Proof.Machine

/-! ### Registers and the program counter -/

/-- `x[i]`: R0 reads the address of the instruction being executed (R8, R21). -/
def State.readReg (s : State) : Reg → Word
  | .r0 => s.pc
  | .r1 => s.r1
  | .r2 => s.r2
  | .r3 => s.r3
  | .r4 => s.r4
  | .r5 => s.r5
  | .r6 => s.r6
  | .r7 => s.r7

/-- `x[i] <- v`: a write of R0 makes `v` the address of the next instruction (R8, R22). -/
def State.writeReg (s : State) (r : Reg) (v : Word) : State :=
  match r with
  | .r0 => { s with pc := v }
  | .r1 => { s with r1 := v }
  | .r2 => { s with r2 := v }
  | .r3 => { s with r3 := v }
  | .r4 => { s with r4 := v }
  | .r5 => { s with r5 := v }
  | .r6 => { s with r6 := v }
  | .r7 => { s with r7 := v }

/-- `npc <- target` (R8). -/
def State.setPc (s : State) (target : Word) : State := { s with pc := target }

/-- The address after this instruction, `pc + 2` modulo 2^16 (R23, R24). -/
def State.nextPc (s : State) : Word := s.pc + 2#16

/-- `npc <- pc + 2`, with which every step begins (R23). -/
def State.advance (s : State) : State := s.setPc s.nextPc

/-! ### Flags -/

/-- Write both flags (R26: additions). -/
def State.setFlags (s : State) (c z : Bool) : State := { s with c := c, z := z }

/-- Write Z, leaving C (R26: NANDs and LW). -/
def State.setZ (s : State) (z : Bool) : State := { s with z := z }

/-! ### Memory -/

/-- The byte at an address that nothing has written: its part of the word's unconstrained value, laid
out in the machine's order like any other word (R43; U11 "any value", assumption log 3). -/
def initialByte (o : ByteOrder) (a : Nat) : Byte :=
  if a % 2 = 0 then (splitWord o (Config.initialWord a)).1
  else (splitWord o (Config.initialWord (a - 1))).2

/-- The byte a data read finds: the last one written, or an unconstrained one where nothing has
written (R42). -/
def State.byteAt (s : State) (a : Nat) : Byte :=
  (s.mem.read? a).getD (initialByte s.cfg.byteOrder a)

/-- The word at an even address, its bytes in the machine's order (R42, R43). -/
def State.wordAt (s : State) (a : Word) : Word :=
  joinWord s.cfg.byteOrder (s.byteAt a.toNat) (s.byteAt (a.toNat + 1))

/-- The memory with the word at an even address replaced. -/
def Memory.writeWord (o : ByteOrder) (m : Memory) (a v : Word) : Memory :=
  (m.write a.toNat (splitWord o v).1).write (a.toNat + 1) (splitWord o v).2

/-- The two checks of a data access, in the order of R223: the address must be even (R44), then in
MEM_MAP (R47). -/
def State.accessRefusal (s : State) (a : Word) : Option Refusal :=
  if a.getLsbD 0 then some .misalignedAccess
  else if s.cfg.mapped a then none
  else some .unmappedAccess

/-- Replace memory, leaving everything else. -/
def State.setMem (s : State) (m : Memory) : State := { s with mem := m }

/-- `MemRead(addr, 2)` (R42). -/
def State.memRead (s : State) (a : Word) : Except Refusal Word :=
  match s.accessRefusal a with
  | some r => .error r
  | none => .ok (s.wordAt a)

/-- `MemWrite(addr, 2, v)` (R42). -/
def State.memWrite (s : State) (a v : Word) : Except Refusal State :=
  match s.accessRefusal a with
  | some r => .error r
  | none => .ok (s.setMem (Memory.writeWord s.cfg.byteOrder s.mem a v))

/-! ### LM and SM (44_load_store_multiple.md R160 to R162) -/

/-- The reads of LM: each register of the list receives the next word, two bytes on (modulo 2^16),
starting at `addr`. The words come from `src`, the state before the instruction; the registers are
written in `t`. Any refusal refuses the whole (R56). -/
def loadRegs (src : State) : List Reg → Word → State → Except Refusal State
  | [], _, t => .ok t
  | r :: rs, addr, t =>
    match src.memRead addr with
    | .error e => .error e
    | .ok v => loadRegs src rs (addr + 2#16) (t.writeReg r v)

/-- The writes of SM: each register of the list, as `src` holds it, goes to the next word. Any
refusal refuses the whole (R56). -/
def storeRegs (src : State) : List Reg → Word → State → Except Refusal State
  | [], _, t => .ok t
  | r :: rs, addr, t =>
    match t.memWrite addr (src.readReg r) with
    | .error e => .error e
    | .ok t' => storeRegs src rs (addr + 2#16) t'

/-! ### Outcomes -/

/-- The outcome of an instruction whose last operation may refuse (R11). -/
def finish : Except Refusal State → Host.Outcome State Fault Refusal
  | .ok t => .next t
  | .error r => .refused r

end Sys2Proof.Machine
end

