-- ==== Sys2Proof/Machine/Flags.lean ====
section
/-! DEFINITION. The adder, the two flags, the conditions of predicated instructions and the
comparisons of the branches (10_state.md R26 to R28, 00_scope.md R10, 45_branch.md R180). -/

namespace Sys2Proof.Machine

/-- The Condition field CZ of the R format (30_encoding.md R65). -/
inductive CZ where
  /-- 00: always execute. -/
  | always
  /-- 10: execute only if C = 1. -/
  | ifCarry
  /-- 01: execute only if Z = 1. -/
  | ifZero
  /-- 11: always execute, C as carry in (ADD group only). -/
  | withCarry
  deriving DecidableEq, Repr

/-- Whether an instruction with this condition executes (R100, R120). -/
def CZ.holds (cz : CZ) (s : State) : Bool :=
  match cz with
  | .always => true
  | .ifCarry => s.c
  | .ifZero => s.z
  | .withCarry => true

/-- The carry input: C for AWC and ACW, 0 for every other addition (R100). -/
def CZ.carryIn (cz : CZ) (s : State) : Bool :=
  match cz with
  | .always => false
  | .ifCarry => false
  | .ifZero => false
  | .withCarry => s.c

/-- `add17(a, b, cin)`: the 17-bit vector of the exact sum (R10). -/
def add17 (a b : Word) (cin : Bool) : BitVec 17 := BitVec.ofNat 17 (a.toNat + b.toNat + cin.toNat)

/-- The sum, bits 15:0 of `add17`. -/
def sumOf (t : BitVec 17) : Word := t.extractLsb' 0 16

/-- The carry out, bit 16 of `add17` (R26). -/
def carryOf (t : BitVec 17) : Bool := t.getLsbD 16

/-- Z of a written value: set exactly when all 16 bits are 0 (R26). -/
def zeroOf (v : Word) : Bool := decide (v = 0#16)

/-- Bitwise NAND (R10, R120). -/
def nandOf (a b : Word) : Word := ~~~(a &&& b)

/-- The comparison of BLT, signed or unsigned by CMP_SIGNED (R180). -/
def lessThan (signed : Bool) (a b : Word) : Bool := if signed then a.slt b else a.ult b

/-- The comparison of BLE, signed or unsigned by CMP_SIGNED (R180). -/
def lessOrEqual (signed : Bool) (a b : Word) : Bool := if signed then a.sle b else a.ule b

end Sys2Proof.Machine
end

