-- ==== Sys2Proof/Machine/Operands.lean ====
section
/-! DEFINITION. Operand forms: immediates, the complemented operand, effective addresses, branch and
jump targets, and the registers an LM or SM mask selects. These are all the forms there are
(30_encoding.md R70). -/

namespace Sys2Proof.Machine

/-- `sext_16` of a 6-bit immediate (00_scope.md R10, 30_encoding.md R67). -/
def sext6 (v : BitVec 6) : Word := v.signExtend 16

/-- `sext_16` of a 9-bit immediate (R10, R68). -/
def sext9 (v : BitVec 9) : Word := v.signExtend 16

/-- `zext_16` of a 9-bit immediate (R10, R68): LLI. -/
def zext9 (v : BitVec 9) : Word := v.zeroExtend 16

/-- `v * 2` on a word: `v[14:0] ++ 0` (R10). -/
def timesTwo (v : Word) : Word := v <<< 1

/-- The second operand of the ADD and NAND groups: all 16 bits complemented when K = 1 (R100, R120). -/
def complementIf (k : Bool) (v : Word) : Word := if k then ~~~v else v

/-- The effective address of LW and SW: base plus the unscaled signed displacement (R143). -/
def effectiveAddress (base : Word) (imm6 : BitVec 6) : Word := base + sext6 imm6

/-- The target of a taken branch: `pc + sext_16(imm6) * 2` (R180). -/
def branchTarget (pc : Word) (imm6 : BitVec 6) : Word := pc + timesTwo (sext6 imm6)

/-- The target of JAL from the PC and of JRI from a register: `base + sext_16(imm9) * 2`
(R200, R202). -/
def jumpTarget (base : Word) (imm9 : BitVec 9) : Word := base + timesTwo (sext9 imm9)

/-- Which register each mask bit selects, in the order of transfer: bit 0 is R7, bit 7 is R0
(R69, R160). -/
def maskRegs : List (Nat × Reg) :=
  [(0, .r7), (1, .r6), (2, .r5), (3, .r4), (4, .r3), (5, .r2), (6, .r1), (7, .r0)]

/-- `sequence(mask8)` of R160: the selected registers in transfer order, R7 first, R0 last. -/
def transferOrder (mask8 : BitVec 8) : List Reg :=
  (maskRegs.filter fun p => mask8.getLsbD p.1).map Prod.snd

end Sys2Proof.Machine
end

