-- ==== Sys2Proof/Machine/Add.lean ====
section
/-! DEFINITION. The ADD group and ADI (41_add.md). -/

namespace Sys2Proof.Machine

/-- Write a sum to its destination and its carry out and zero test to the flags, control going on at
`pc + 2` unless the destination is R0 (R22, R26). -/
def writeSum (rd : Reg) (t : BitVec 17) (s : State) : State :=
  (s.advance.writeReg rd (sumOf t)).setFlags (carryOf t) (zeroOf (sumOf t))

/-- `ADDGROUP(RA, RB, RC, K, CZ)` of R100. -/
def addGroup (k : Bool) (cz : CZ) (ra rb rc : Reg) (s : State) : Host.Outcome State Fault Refusal :=
  if cz.holds s then
    .next (writeSum rc (add17 (s.readReg ra) (complementIf k (s.readReg rb)) (cz.carryIn s)) s)
  else
    .next s.advance

/-- ADA (R101). -/
def execAda (ra rb rc : Reg) (s : State) : Host.Outcome State Fault Refusal :=
  addGroup false .always ra rb rc s

/-- ADC (R102). -/
def execAdc (ra rb rc : Reg) (s : State) : Host.Outcome State Fault Refusal :=
  addGroup false .ifCarry ra rb rc s

/-- ADZ (R103). -/
def execAdz (ra rb rc : Reg) (s : State) : Host.Outcome State Fault Refusal :=
  addGroup false .ifZero ra rb rc s

/-- AWC (R104). -/
def execAwc (ra rb rc : Reg) (s : State) : Host.Outcome State Fault Refusal :=
  addGroup false .withCarry ra rb rc s

/-- ACA (R105). -/
def execAca (ra rb rc : Reg) (s : State) : Host.Outcome State Fault Refusal :=
  addGroup true .always ra rb rc s

/-- ACC (R106). -/
def execAcc (ra rb rc : Reg) (s : State) : Host.Outcome State Fault Refusal :=
  addGroup true .ifCarry ra rb rc s

/-- ACZ (R107). -/
def execAcz (ra rb rc : Reg) (s : State) : Host.Outcome State Fault Refusal :=
  addGroup true .ifZero ra rb rc s

/-- ACW (R108). -/
def execAcw (ra rb rc : Reg) (s : State) : Host.Outcome State Fault Refusal :=
  addGroup true .withCarry ra rb rc s

/-- ADI (R109): RA is the source, RB the destination. -/
def execAdi (ra rb : Reg) (imm6 : BitVec 6) (s : State) : Host.Outcome State Fault Refusal :=
  .next (writeSum rb (add17 (s.readReg ra) (sext6 imm6) false) s)

end Sys2Proof.Machine
end

