-- ==== Sys2Proof/Machine/Branch.lean ====
section
/-! DEFINITION. The conditional branches (45_branch.md). They compare registers and neither read nor
write a flag. -/

namespace Sys2Proof.Machine

/-- `BRANCH(cond, RA, RB, imm6)` of R180, the condition already evaluated. -/
def branchIf (taken : Bool) (imm6 : BitVec 6) (s : State) : Host.Outcome State Fault Refusal :=
  if taken then .next (s.setPc (branchTarget s.pc imm6)) else .next s.advance

/-- BEQ (R181). -/
def execBeq (ra rb : Reg) (imm6 : BitVec 6) (s : State) : Host.Outcome State Fault Refusal :=
  branchIf (decide (s.readReg ra = s.readReg rb)) imm6 s

/-- BLT (R182). -/
def execBlt (ra rb : Reg) (imm6 : BitVec 6) (s : State) : Host.Outcome State Fault Refusal :=
  branchIf (lessThan s.cfg.cmpSigned (s.readReg ra) (s.readReg rb)) imm6 s

/-- BLE (R183). -/
def execBle (ra rb : Reg) (imm6 : BitVec 6) (s : State) : Host.Outcome State Fault Refusal :=
  branchIf (lessOrEqual s.cfg.cmpSigned (s.readReg ra) (s.readReg rb)) imm6 s

end Sys2Proof.Machine
end

