-- ==== Sys2Proof/Machine/Jump.lean ====
section
/-! DEFINITION. The jumps (46_jump.md). -/

namespace Sys2Proof.Machine

/-- Write the link `pc + 2` to `ra` and go to `target`; refused when `ra` is R0, since both writes
would be to the PC and no source ranks them (R22, D3). -/
def linkAndGo (ra : Reg) (target : Word) (s : State) : Host.Outcome State Fault Refusal :=
  if ra = .r0 then .refused .doublePcWrite
  else .next ((s.writeReg ra s.nextPc).setPc target)

/-- JAL (R200). -/
def execJal (ra : Reg) (imm9 : BitVec 9) (s : State) : Host.Outcome State Fault Refusal :=
  linkAndGo ra (jumpTarget s.pc imm9) s

/-- JLR (R201): the target is read before the link is written. -/
def execJlr (ra rb : Reg) (s : State) : Host.Outcome State Fault Refusal :=
  linkAndGo ra (s.readReg rb) s

/-- JRI (R202): a jump to an address, without link and without a memory read. -/
def execJri (ra : Reg) (imm9 : BitVec 9) (s : State) : Host.Outcome State Fault Refusal :=
  .next (s.setPc (jumpTarget (s.readReg ra) imm9))

end Sys2Proof.Machine
end

