-- ==== Sys2Proof/Machine/Nand.lean ====
section
/-! DEFINITION. The NAND group (42_nand.md). -/

namespace Sys2Proof.Machine

/-- Write a value to its destination and its zero test to Z, leaving C; control goes on at `pc + 2`
unless the destination is R0 (R22, R26). -/
def writeZeroTested (rd : Reg) (v : Word) (s : State) : State :=
  (s.advance.writeReg rd v).setZ (zeroOf v)

/-- The effect of a NAND with a condition of 00, 10 or 01 (R120). -/
def nandIf (executes : Bool) (k : Bool) (ra rb rc : Reg) (s : State) : Host.Outcome State Fault Refusal :=
  if executes then
    .next (writeZeroTested rc (nandOf (s.readReg ra) (complementIf k (s.readReg rb))) s)
  else
    .next s.advance

/-- `NANDGROUP(RA, RB, RC, K, CZ)` of R120; CZ = 11 is reserved (R127). -/
def nandGroup (k : Bool) (cz : CZ) (ra rb rc : Reg) (s : State) : Host.Outcome State Fault Refusal :=
  match cz with
  | .withCarry => .refused .reservedEncoding
  | .always => nandIf (CZ.always.holds s) k ra rb rc s
  | .ifCarry => nandIf (CZ.ifCarry.holds s) k ra rb rc s
  | .ifZero => nandIf (CZ.ifZero.holds s) k ra rb rc s

/-- NDU (R121). -/
def execNdu (ra rb rc : Reg) (s : State) : Host.Outcome State Fault Refusal :=
  nandGroup false .always ra rb rc s

/-- NDC (R122). -/
def execNdc (ra rb rc : Reg) (s : State) : Host.Outcome State Fault Refusal :=
  nandGroup false .ifCarry ra rb rc s

/-- NDZ (R123). -/
def execNdz (ra rb rc : Reg) (s : State) : Host.Outcome State Fault Refusal :=
  nandGroup false .ifZero ra rb rc s

/-- NCU (R124). -/
def execNcu (ra rb rc : Reg) (s : State) : Host.Outcome State Fault Refusal :=
  nandGroup true .always ra rb rc s

/-- NCC (R125). -/
def execNcc (ra rb rc : Reg) (s : State) : Host.Outcome State Fault Refusal :=
  nandGroup true .ifCarry ra rb rc s

/-- NCZ (R126). -/
def execNcz (ra rb rc : Reg) (s : State) : Host.Outcome State Fault Refusal :=
  nandGroup true .ifZero ra rb rc s

end Sys2Proof.Machine
end

