-- ==== Sys2Proof/Machine/LoadStore.lean ====
section
/-! DEFINITION. LLI, LW and SW (43_lli_load_store.md). -/

namespace Sys2Proof.Machine

/-- LLI (R140): the whole register is written, the upper 7 bits zero; no flag changes. -/
def execLli (ra : Reg) (imm9 : BitVec 9) (s : State) : Host.Outcome State Fault Refusal :=
  .next (s.advance.writeReg ra (zext9 imm9))

/-- LW (R141): Z from the loaded word, C unchanged. -/
def execLw (ra rb : Reg) (imm6 : BitVec 6) (s : State) : Host.Outcome State Fault Refusal :=
  match s.memRead (effectiveAddress (s.readReg rb) imm6) with
  | .error r => .refused r
  | .ok v => .next (writeZeroTested ra v s)

/-- SW (R142): no register and no flag changes; R0 stores the address of the SW. -/
def execSw (ra rb : Reg) (imm6 : BitVec 6) (s : State) : Host.Outcome State Fault Refusal :=
  finish (s.advance.memWrite (effectiveAddress (s.readReg rb) imm6) (s.readReg ra))

end Sys2Proof.Machine
end

