-- ==== Sys2Proof/Machine/Multiple.lean ====
section
/-! DEFINITION. LM and SM (44_load_store_multiple.md). The base is read once and not updated (D17);
no flag changes (D18). -/

namespace Sys2Proof.Machine

/-- LM (R161). A word loaded for R0 is the next PC (R22). -/
def execLm (ra : Reg) (mask8 : BitVec 8) (s : State) : Host.Outcome State Fault Refusal :=
  finish (loadRegs s (transferOrder mask8) (s.readReg ra) s.advance)

/-- SM (R162). R0 stores the address of the SM (R21). -/
def execSm (ra : Reg) (mask8 : BitVec 8) (s : State) : Host.Outcome State Fault Refusal :=
  finish (storeRegs s (transferOrder mask8) (s.readReg ra) s.advance)

end Sys2Proof.Machine
end

