-- ==== Sys2Proof/Machine/Dispatch.lean ====
section
/-! DEFINITION. One arm per instruction (10_state.md R23: "decode insn and execute its rule"). -/

namespace Sys2Proof.Machine

def exec (i : Instr) (s : State) : Host.Outcome State Fault Refusal :=
  match i with
  | .ada ra rb rc => Sys2Proof.Machine.execAda ra rb rc s
  | .adc ra rb rc => Sys2Proof.Machine.execAdc ra rb rc s
  | .adz ra rb rc => Sys2Proof.Machine.execAdz ra rb rc s
  | .awc ra rb rc => Sys2Proof.Machine.execAwc ra rb rc s
  | .aca ra rb rc => Sys2Proof.Machine.execAca ra rb rc s
  | .acc ra rb rc => Sys2Proof.Machine.execAcc ra rb rc s
  | .acz ra rb rc => Sys2Proof.Machine.execAcz ra rb rc s
  | .acw ra rb rc => Sys2Proof.Machine.execAcw ra rb rc s
  | .adi ra rb imm6 => Sys2Proof.Machine.execAdi ra rb imm6 s
  | .ndu ra rb rc => Sys2Proof.Machine.execNdu ra rb rc s
  | .ndc ra rb rc => Sys2Proof.Machine.execNdc ra rb rc s
  | .ndz ra rb rc => Sys2Proof.Machine.execNdz ra rb rc s
  | .ncu ra rb rc => Sys2Proof.Machine.execNcu ra rb rc s
  | .ncc ra rb rc => Sys2Proof.Machine.execNcc ra rb rc s
  | .ncz ra rb rc => Sys2Proof.Machine.execNcz ra rb rc s
  | .lli ra imm9 => Sys2Proof.Machine.execLli ra imm9 s
  | .lw ra rb imm6 => Sys2Proof.Machine.execLw ra rb imm6 s
  | .sw ra rb imm6 => Sys2Proof.Machine.execSw ra rb imm6 s
  | .lm ra mask8 => Sys2Proof.Machine.execLm ra mask8 s
  | .sm ra mask8 => Sys2Proof.Machine.execSm ra mask8 s
  | .beq ra rb imm6 => Sys2Proof.Machine.execBeq ra rb imm6 s
  | .blt ra rb imm6 => Sys2Proof.Machine.execBlt ra rb imm6 s
  | .ble ra rb imm6 => Sys2Proof.Machine.execBle ra rb imm6 s
  | .jal ra imm9 => Sys2Proof.Machine.execJal ra imm9 s
  | .jlr ra rb => Sys2Proof.Machine.execJlr ra rb s
  | .jri ra imm9 => Sys2Proof.Machine.execJri ra imm9 s

end Sys2Proof.Machine
end

