-- ==== Sys2Proof/Machine/Fetch.lean ====
section
/-! DEFINITION. Fetching an instruction (10_state.md R23, R25; 20_memory.md R42), and how words come
into memory from outside before reset is released (70_reset_and_hazards.md R243). -/

namespace Sys2Proof.Machine

/-- The two bytes at an even PC, the lower address first. A fetch checks, in the order of R223, that
the PC is even (R25), that it lies in MEM_MAP (R47) and that its word has been written (R32, U11: an
arbitrary word may be any instruction). -/
def State.fetchBytes (s : State) : Except Refusal (Byte × Byte) :=
  if s.pc.getLsbD 0 then .error .misalignedFetch
  else if !s.cfg.mapped s.pc then .error .unmappedAccess
  else
    match s.mem.read? s.pc.toNat, s.mem.read? (s.pc.toNat + 1) with
    | some lower, some upper => .ok (lower, upper)
    | _, _ => .error .unwrittenRead

/-- Fetch and decode; a reserved word is refused whatever the reason it is reserved (R71, R72). -/
def State.fetch (s : State) : Except Refusal Instr :=
  match s.fetchBytes with
  | .error r => .error r
  | .ok (lower, upper) =>
    match decodeBytes s.cfg.byteOrder [lower, upper] with
    | .ok (i, _) => .ok i
    | .error _ => .error .reservedEncoding

/-- The host writes the word at an even address (R243). R243 speaks of words of MEM_MAP only; a word
outside MEM_MAP or at an odd address is stored all the same, unchecked (DESIGN CHOICE, assumption log
14). No step reads or writes at an address outside MEM_MAP. -/
def State.placeWord (s : State) (a w : Word) : State :=
  s.setMem (Memory.writeWord s.cfg.byteOrder s.mem a w)

/-- The host writes words of an image, each at its address (R243), the later over the earlier, as
unchecked as `placeWord` (assumption log 14). -/
def State.loadWords (s : State) (image : List (Word × Word)) : State :=
  image.foldl (fun t p => t.placeWord p.1 p.2) s

end Sys2Proof.Machine
end

