-- ==== Sys2Proof/Machine/Step.lean ====
section
/-! DEFINITION. The step (10_state.md R23): fetch, decode, execute. Each meaning sets the next PC
itself, so nothing is added around `exec`. -/

namespace Sys2Proof.Machine

/-- One step of the machine (R23). -/
def step (s : State) : Host.Outcome State Fault Refusal :=
  match s.fetch with
  | .error r => .refused r
  | .ok i => exec i s

/-- The state with an opcode-table word stored where the next step fetches, at the PC. Nothing else
changes; it stands for the host's load of a program (R243, assumption log 5). -/
def State.withFetchWord (s : State) (nbits w : Nat) : State := s.placeWord s.pc (tableWord nbits w)

end Sys2Proof.Machine
end

