-- ==== Sys2Proof/Machine/Assembly.lean ====
section
/-! DEFINITION. The assembly line of an instruction (30_encoding.md R75): the lower-case mnemonic and
the operands in the order the line writes them, which is not the order of the word's fields.

An operand is a value, not its spelling: how a register or a number is written is a convention of
the spec for its own listings (92_eei_decisions.md D24). -/

namespace Sys2Proof

/-- An operand of an assembly line. -/
inductive AsmOperand where
  /-- A register. -/
  | reg (r : Reg)
  /-- The value of an immediate field: signed, but for LLI. -/
  | imm (v : Int)
  /-- The register mask of LM and SM, its leftmost bit standing for R0 (R69). -/
  | mask (m : BitVec 8)
  deriving DecidableEq, Repr

/-- An assembly line: mnemonic and operands in writing order. -/
structure AsmLine where
  mnemonic : String
  operands : List AsmOperand
  deriving DecidableEq, Repr

/-- `<m> rc, ra, rb` (rows 1 to 8 and 10 to 15). -/
def lineR (m : String) (ra rb rc : Reg) : AsmLine := ⟨m, [.reg rc, .reg ra, .reg rb]⟩

/-- `<m> ra, rb, Imm` (rows 17, 18, 21, 22, 23). -/
def lineI (m : String) (ra rb : Reg) (imm6 : BitVec 6) : AsmLine :=
  ⟨m, [.reg ra, .reg rb, .imm imm6.toInt]⟩

/-- `<m> ra, Imm` with a signed immediate (rows 24 and 26). -/
def lineJ (m : String) (ra : Reg) (imm9 : BitVec 9) : AsmLine := ⟨m, [.reg ra, .imm imm9.toInt]⟩

/-- `<m> ra, Imm` with a register mask (rows 19 and 20). -/
def lineM (m : String) (ra : Reg) (mask8 : BitVec 8) : AsmLine := ⟨m, [.reg ra, .mask mask8]⟩

/-- The assembly line of an instruction, row by row of R75. -/
def disassemble : Instr → AsmLine
  | .ada ra rb rc => lineR "ada" ra rb rc
  | .adc ra rb rc => lineR "adc" ra rb rc
  | .adz ra rb rc => lineR "adz" ra rb rc
  | .awc ra rb rc => lineR "awc" ra rb rc
  | .aca ra rb rc => lineR "aca" ra rb rc
  | .acc ra rb rc => lineR "acc" ra rb rc
  | .acz ra rb rc => lineR "acz" ra rb rc
  | .acw ra rb rc => lineR "acw" ra rb rc
  | .adi ra rb imm6 => ⟨"adi", [.reg rb, .reg ra, .imm imm6.toInt]⟩
  | .ndu ra rb rc => lineR "ndu" ra rb rc
  | .ndc ra rb rc => lineR "ndc" ra rb rc
  | .ndz ra rb rc => lineR "ndz" ra rb rc
  | .ncu ra rb rc => lineR "ncu" ra rb rc
  | .ncc ra rb rc => lineR "ncc" ra rb rc
  | .ncz ra rb rc => lineR "ncz" ra rb rc
  | .lli ra imm9 => ⟨"lli", [.reg ra, .imm imm9.toNat]⟩
  | .lw ra rb imm6 => lineI "lw" ra rb imm6
  | .sw ra rb imm6 => lineI "sw" ra rb imm6
  | .lm ra mask8 => lineM "lm" ra mask8
  | .sm ra mask8 => lineM "sm" ra mask8
  | .beq ra rb imm6 => lineI "beq" ra rb imm6
  | .blt ra rb imm6 => lineI "blt" ra rb imm6
  | .ble ra rb imm6 => lineI "ble" ra rb imm6
  | .jal ra imm9 => lineJ "jal" ra imm9
  | .jlr ra rb => ⟨"jlr", [.reg ra, .reg rb]⟩
  | .jri ra imm9 => lineJ "jri" ra imm9

/-- The operands `rc, ra, rb` of an R-format line. -/
def parseR (f : Reg → Reg → Reg → Instr) : List AsmOperand → Option Instr
  | [.reg rc, .reg ra, .reg rb] => some (f ra rb rc)
  | _ => none

/-- Two registers and a signed 6-bit immediate, -32 to +31 (R67). -/
def parseI (f : Reg → Reg → BitVec 6 → Instr) : List AsmOperand → Option Instr
  | [.reg x, .reg y, .imm v] =>
    if -32 ≤ v ∧ v ≤ 31 then some (f x y (BitVec.ofInt 6 v)) else none
  | _ => none

/-- A register and a signed 9-bit immediate, -256 to +255 (R68). -/
def parseJ (f : Reg → BitVec 9 → Instr) : List AsmOperand → Option Instr
  | [.reg ra, .imm v] => if -256 ≤ v ∧ v ≤ 255 then some (f ra (BitVec.ofInt 9 v)) else none
  | _ => none

/-- A register and an unsigned 9-bit immediate, 0 to 511 (R68, LLI). -/
def parseU (f : Reg → BitVec 9 → Instr) : List AsmOperand → Option Instr
  | [.reg ra, .imm v] => if 0 ≤ v ∧ v ≤ 511 then some (f ra (BitVec.ofInt 9 v)) else none
  | _ => none

/-- A register and a mask (R69). -/
def parseM (f : Reg → BitVec 8 → Instr) : List AsmOperand → Option Instr
  | [.reg ra, .mask m] => some (f ra m)
  | _ => none

/-- Two registers (JLR). -/
def parseRR (f : Reg → Reg → Instr) : List AsmOperand → Option Instr
  | [.reg ra, .reg rb] => some (f ra rb)
  | _ => none

/-- How a mnemonic's operands are read; `jalr` is a second spelling of `jal` (R75, D24). -/
def operandsOf (mnemonic : String) : List AsmOperand → Option Instr :=
  match mnemonic with
  | "ada" => parseR .ada
  | "adc" => parseR .adc
  | "adz" => parseR .adz
  | "awc" => parseR .awc
  | "aca" => parseR .aca
  | "acc" => parseR .acc
  | "acz" => parseR .acz
  | "acw" => parseR .acw
  | "adi" => parseI fun rb ra imm6 => .adi ra rb imm6
  | "ndu" => parseR .ndu
  | "ndc" => parseR .ndc
  | "ndz" => parseR .ndz
  | "ncu" => parseR .ncu
  | "ncc" => parseR .ncc
  | "ncz" => parseR .ncz
  | "lli" => parseU .lli
  | "lw" => parseI .lw
  | "sw" => parseI .sw
  | "lm" => parseM .lm
  | "sm" => parseM .sm
  | "beq" => parseI .beq
  | "blt" => parseI .blt
  | "ble" => parseI .ble
  | "jal" => parseJ .jal
  | "jalr" => parseJ .jal
  | "jlr" => parseRR .jlr
  | "jri" => parseJ .jri
  | _ => fun _ => none

/-- The instruction an assembly line stands for, or none where it is no line of R75. -/
def assemble (l : AsmLine) : Option Instr := operandsOf l.mnemonic l.operands

end Sys2Proof
end

