-- ==== Sys2Proof/Safety.lean ====
section
/-! DEFINITION. What counts as a safe run, in the terms the statements use: the state invariant, the
end of a run at HALT_PC, the cautious step that refuses to fetch a stored word, and what two states
have in common. -/

namespace Sys2Proof.Safety

open Sys2Proof.Machine

/-- The invariant of the machine: memory is in its canonical form and its words are written whole
(20_memory.md R41, R46). -/
abbrev StateInv (s : State) : Prop := s.mem.wf ∧ s.mem.whole

/-- A step that has a next state: the run is neither refused nor at fault. -/
def Runs (s : State) : Prop := ∃ t, step s = .next t

/-! ### What a step leaves alone -/

/-- Every byte of memory reads as before, and is written or unwritten as before. -/
def SameBytes (s t : State) : Prop := ∀ a : Nat, t.mem.read? a = s.mem.read? a

/-- Both flags are as before. -/
def SameFlags (s t : State) : Prop := t.c = s.c ∧ t.z = s.z

/-- R1 to R7 are as before, but for the registers of the list. -/
def SameRegsBut (ds : List Reg) (s t : State) : Prop :=
  ∀ q : Reg, q ≠ .r0 → q ∉ ds → t.readReg q = s.readReg q

/-- Control goes on at the next instruction, modulo 2^16 (R23, R24). -/
def GoesOn (s t : State) : Prop := t.pc.toNat = (s.pc.toNat + 2) % 65536

/-- The 32-bit number whose upper and lower halves two registers hold. -/
def pairValue (s : State) (hi lo : Reg) : Nat := (s.readReg hi).toNat * 65536 + (s.readReg lo).toNat

/-- The `k`-th word of the address sequence of an LM or SM: `base + 2*k` modulo 2^16 (R160). -/
def sequenceAddress (base : Word) (k : Nat) : Word := BitVec.ofNat 16 (base.toNat + 2 * k)

/-- A data access at the address has a meaning: it is even and in MEM_MAP (R44, R47). -/
def Accessible (s : State) (a : Word) : Prop := a.toNat % 2 = 0 ∧ s.cfg.mapped a = true

/-! ### The end of a run (70_reset_and_hazards.md R242) -/

/-- The state is at the address where its run is taken to have ended. -/
def atHalt (s : State) : Bool := decide (s.cfg.haltPc = some s.pc)

/-- How far a run has come after at most some number of steps. -/
inductive RunResult where
  /-- The PC arrived at HALT_PC; the instruction there is not executed. -/
  | ended (s : State)
  /-- The steps are used up and the run goes on. -/
  | going (s : State)
  /-- A step was refused: the run is neither final nor safe (R221). -/
  | refused (r : Refusal)
  /-- A step was at fault; no step is (R220). -/
  | fault (f : Fault)
  deriving DecidableEq, Repr

/-- Run until the first step boundary at which the PC is HALT_PC, at most `n` steps (R242). -/
def runToHalt : Nat → State → RunResult
  | 0, s => if atHalt s then .ended s else .going s
  | n + 1, s =>
    if atHalt s then .ended s
    else
      match step s with
      | .next t => runToHalt n t
      | .refused r => .refused r
      | .fault f => .fault f

/-! ### The cautious step (20_memory.md R53, 93_implementation_defined.md U12) -/

/-- The addresses of the words an instruction stores, in order: SW one, SM one for each selected
register (R46). -/
def storedBy (i : Instr) (s : State) : List Word :=
  match i with
  | .sw _ rb imm6 => [effectiveAddress (s.readReg rb) imm6]
  | .sm ra mask8 =>
    (List.range (transferOrder mask8).length).map fun k => sequenceAddress (s.readReg ra) k
  | .ada _ _ _ => []
  | .adc _ _ _ => []
  | .adz _ _ _ => []
  | .awc _ _ _ => []
  | .aca _ _ _ => []
  | .acc _ _ _ => []
  | .acz _ _ _ => []
  | .acw _ _ _ => []
  | .adi _ _ _ => []
  | .ndu _ _ _ => []
  | .ndc _ _ _ => []
  | .ndz _ _ _ => []
  | .ncu _ _ _ => []
  | .ncc _ _ _ => []
  | .ncz _ _ _ => []
  | .lli _ _ => []
  | .lw _ _ _ => []
  | .lm _ _ => []
  | .beq _ _ _ => []
  | .blt _ _ _ => []
  | .ble _ _ _ => []
  | .jal _ _ => []
  | .jlr _ _ => []
  | .jri _ _ => []

/-- The step that R53 advises: it refuses to fetch a word that a store of the same run has written,
`stored` being those words' addresses, and otherwise steps and adds what this instruction stores. The
refusal stands after the two checks on the address and before decoding (R223). -/
def cautiousStep (stored : List Word) (s : State) : Host.Outcome (List Word × State) Fault Refusal :=
  match s.fetchBytes with
  | .error r => .refused r
  | .ok _ =>
    if s.pc ∈ stored then .refused .fetchAfterStore
    else
      match s.fetch with
      | .error r => .refused r
      | .ok i =>
        match exec i s with
        | .next t => .next (storedBy i s ++ stored, t)
        | .refused r => .refused r
        | .fault f => .fault f

/-! ### The tables of 10_state.md and 20_memory.md, as the statements use them -/

/-- The registers an instruction's fields name as destination (R20's table), R0 among them. A branch
or jump writes R0 as its transfer of control, which is not counted here. -/
def destinations : Instr → List Reg
  | .ada _ _ rc => [rc]
  | .adc _ _ rc => [rc]
  | .adz _ _ rc => [rc]
  | .awc _ _ rc => [rc]
  | .aca _ _ rc => [rc]
  | .acc _ _ rc => [rc]
  | .acz _ _ rc => [rc]
  | .acw _ _ rc => [rc]
  | .adi _ rb _ => [rb]
  | .ndu _ _ rc => [rc]
  | .ndc _ _ rc => [rc]
  | .ndz _ _ rc => [rc]
  | .ncu _ _ rc => [rc]
  | .ncc _ _ rc => [rc]
  | .ncz _ _ rc => [rc]
  | .lli ra _ => [ra]
  | .lw ra _ _ => [ra]
  | .sw _ _ _ => []
  | .lm _ mask8 => transferOrder mask8
  | .sm _ _ => []
  | .beq _ _ _ => []
  | .blt _ _ _ => []
  | .ble _ _ _ => []
  | .jal ra _ => [ra]
  | .jlr ra _ => [ra]
  | .jri _ _ => []

/-- The branches and jumps, whose rules set the next PC (R23's table). -/
def branchesOrJumps : Instr → Bool
  | .beq _ _ _ => true
  | .blt _ _ _ => true
  | .ble _ _ _ => true
  | .jal _ _ => true
  | .jlr _ _ => true
  | .jri _ _ => true
  | .ada _ _ _ => false
  | .adc _ _ _ => false
  | .adz _ _ _ => false
  | .awc _ _ _ => false
  | .aca _ _ _ => false
  | .acc _ _ _ => false
  | .acz _ _ _ => false
  | .acw _ _ _ => false
  | .adi _ _ _ => false
  | .ndu _ _ _ => false
  | .ndc _ _ _ => false
  | .ndz _ _ _ => false
  | .ncu _ _ _ => false
  | .ncc _ _ _ => false
  | .ncz _ _ _ => false
  | .lli _ _ => false
  | .lw _ _ _ => false
  | .sw _ _ _ => false
  | .lm _ _ => false
  | .sm _ _ => false

/-- The carry out of the exact sum of two words and a carry in (R26). -/
def carryOut (a b : Word) (cin : Bool) : Bool := decide (65536 ≤ a.toNat + b.toNat + cin.toNat)

/-- C after an instruction, by the table of R27 and the definition of R26. -/
def carryAfter (i : Instr) (s : State) : Bool :=
  match i with
  | .ada ra rb _ => carryOut (s.readReg ra) (s.readReg rb) false
  | .adc ra rb _ => if s.c then carryOut (s.readReg ra) (s.readReg rb) false else s.c
  | .adz ra rb _ => if s.z then carryOut (s.readReg ra) (s.readReg rb) false else s.c
  | .awc ra rb _ => carryOut (s.readReg ra) (s.readReg rb) s.c
  | .aca ra rb _ => carryOut (s.readReg ra) (~~~s.readReg rb) false
  | .acc ra rb _ => if s.c then carryOut (s.readReg ra) (~~~s.readReg rb) false else s.c
  | .acz ra rb _ => if s.z then carryOut (s.readReg ra) (~~~s.readReg rb) false else s.c
  | .acw ra rb _ => carryOut (s.readReg ra) (~~~s.readReg rb) s.c
  | .adi ra _ imm6 => carryOut (s.readReg ra) (imm6.signExtend 16) false
  | .ndu _ _ _ => s.c
  | .ndc _ _ _ => s.c
  | .ndz _ _ _ => s.c
  | .ncu _ _ _ => s.c
  | .ncc _ _ _ => s.c
  | .ncz _ _ _ => s.c
  | .lli _ _ => s.c
  | .lw _ _ _ => s.c
  | .sw _ _ _ => s.c
  | .lm _ _ => s.c
  | .sm _ _ => s.c
  | .beq _ _ _ => s.c
  | .blt _ _ _ => s.c
  | .ble _ _ _ => s.c
  | .jal _ _ => s.c
  | .jlr _ _ => s.c
  | .jri _ _ => s.c

/-- Z after an instruction, by the table of R27 and the definition of R26: whether the value written
to the destination, as the state `t` after it holds it, is 0x0000. -/
def zeroAfter (i : Instr) (s t : State) : Bool :=
  match i with
  | .ada _ _ rc => decide (t.readReg rc = 0)
  | .adc _ _ rc => if s.c then decide (t.readReg rc = 0) else s.z
  | .adz _ _ rc => if s.z then decide (t.readReg rc = 0) else s.z
  | .awc _ _ rc => decide (t.readReg rc = 0)
  | .aca _ _ rc => decide (t.readReg rc = 0)
  | .acc _ _ rc => if s.c then decide (t.readReg rc = 0) else s.z
  | .acz _ _ rc => if s.z then decide (t.readReg rc = 0) else s.z
  | .acw _ _ rc => decide (t.readReg rc = 0)
  | .adi _ rb _ => decide (t.readReg rb = 0)
  | .ndu _ _ rc => decide (t.readReg rc = 0)
  | .ndc _ _ rc => if s.c then decide (t.readReg rc = 0) else s.z
  | .ndz _ _ rc => if s.z then decide (t.readReg rc = 0) else s.z
  | .ncu _ _ rc => decide (t.readReg rc = 0)
  | .ncc _ _ rc => if s.c then decide (t.readReg rc = 0) else s.z
  | .ncz _ _ rc => if s.z then decide (t.readReg rc = 0) else s.z
  | .lw ra _ _ => decide (t.readReg ra = 0)
  | .lli _ _ => s.z
  | .sw _ _ _ => s.z
  | .lm _ _ => s.z
  | .sm _ _ => s.z
  | .beq _ _ _ => s.z
  | .blt _ _ _ => s.z
  | .ble _ _ _ => s.z
  | .jal _ _ => s.z
  | .jlr _ _ => s.z
  | .jri _ _ => s.z

/-- The instructions that read C: ADC, ACC, NDC, NCC as their condition, AWC and ACW as the carry
input (R28). -/
def readsCarry : Instr → Bool
  | .adc _ _ _ => true
  | .acc _ _ _ => true
  | .ndc _ _ _ => true
  | .ncc _ _ _ => true
  | .awc _ _ _ => true
  | .acw _ _ _ => true
  | .ada _ _ _ => false
  | .adz _ _ _ => false
  | .aca _ _ _ => false
  | .acz _ _ _ => false
  | .adi _ _ _ => false
  | .ndu _ _ _ => false
  | .ndz _ _ _ => false
  | .ncu _ _ _ => false
  | .ncz _ _ _ => false
  | .lli _ _ => false
  | .lw _ _ _ => false
  | .sw _ _ _ => false
  | .lm _ _ => false
  | .sm _ _ => false
  | .beq _ _ _ => false
  | .blt _ _ _ => false
  | .ble _ _ _ => false
  | .jal _ _ => false
  | .jlr _ _ => false
  | .jri _ _ => false

/-- The instructions that read Z: ADZ, ACZ, NDZ, NCZ as their condition (R28). -/
def readsZero : Instr → Bool
  | .adz _ _ _ => true
  | .acz _ _ _ => true
  | .ndz _ _ _ => true
  | .ncz _ _ _ => true
  | .ada _ _ _ => false
  | .adc _ _ _ => false
  | .awc _ _ _ => false
  | .aca _ _ _ => false
  | .acc _ _ _ => false
  | .acw _ _ _ => false
  | .adi _ _ _ => false
  | .ndu _ _ _ => false
  | .ndc _ _ _ => false
  | .ncu _ _ _ => false
  | .ncc _ _ _ => false
  | .lli _ _ => false
  | .lw _ _ _ => false
  | .sw _ _ _ => false
  | .lm _ _ => false
  | .sm _ _ => false
  | .beq _ _ _ => false
  | .blt _ _ _ => false
  | .ble _ _ _ => false
  | .jal _ _ => false
  | .jlr _ _ => false
  | .jri _ _ => false

/-- The addresses of the words an instruction reads or writes in memory, in order, the fetch apart:
the table of R46. -/
def accessedBy (i : Instr) (s : State) : List Word :=
  match i with
  | .lw _ rb imm6 => [effectiveAddress (s.readReg rb) imm6]
  | .sw _ rb imm6 => [effectiveAddress (s.readReg rb) imm6]
  | .lm ra mask8 =>
    (List.range (transferOrder mask8).length).map fun k => sequenceAddress (s.readReg ra) k
  | .sm ra mask8 =>
    (List.range (transferOrder mask8).length).map fun k => sequenceAddress (s.readReg ra) k
  | .ada _ _ _ => []
  | .adc _ _ _ => []
  | .adz _ _ _ => []
  | .awc _ _ _ => []
  | .aca _ _ _ => []
  | .acc _ _ _ => []
  | .acz _ _ _ => []
  | .acw _ _ _ => []
  | .adi _ _ _ => []
  | .ndu _ _ _ => []
  | .ndc _ _ _ => []
  | .ndz _ _ _ => []
  | .ncu _ _ _ => []
  | .ncc _ _ _ => []
  | .ncz _ _ _ => []
  | .lli _ _ => []
  | .beq _ _ _ => []
  | .blt _ _ _ => []
  | .ble _ _ _ => []
  | .jal _ _ => []
  | .jlr _ _ => []
  | .jri _ _ => []

/-- The four instructions that reach memory (R46). -/
def touchesMemory : Instr → Bool
  | .lw _ _ _ => true
  | .sw _ _ _ => true
  | .lm _ _ => true
  | .sm _ _ => true
  | .ada _ _ _ => false
  | .adc _ _ _ => false
  | .adz _ _ _ => false
  | .awc _ _ _ => false
  | .aca _ _ _ => false
  | .acc _ _ _ => false
  | .acz _ _ _ => false
  | .acw _ _ _ => false
  | .adi _ _ _ => false
  | .ndu _ _ _ => false
  | .ndc _ _ _ => false
  | .ndz _ _ _ => false
  | .ncu _ _ _ => false
  | .ncc _ _ _ => false
  | .ncz _ _ _ => false
  | .lli _ _ => false
  | .beq _ _ _ => false
  | .blt _ _ _ => false
  | .ble _ _ _ => false
  | .jal _ _ => false
  | .jlr _ _ => false
  | .jri _ _ => false

/-- The instruction stores to memory (R46). -/
def isStore (i : Instr) : Prop := (∃ ra rb imm6, i = .sw ra rb imm6) ∨ ∃ ra mask8, i = .sm ra mask8

/-- An outcome with its next state changed; a refusal or fault stays. -/
def mapNext (f : State → State) :
    Host.Outcome State Fault Refusal → Host.Outcome State Fault Refusal
  | .next t => .next (f t)
  | .fault e => .fault e
  | .refused r => .refused r

/-- R72's table of reserved words: the words outside the 26 encodings. -/
def reservedWord (w : Word) : Prop :=
  w &&& 0xF000#16 = 0xB000#16 ∨ w &&& 0xF000#16 = 0xE000#16 ∨ w &&& 0xF003#16 = 0x2003#16
    ∨ (w &&& 0xF000#16 = 0xD000#16 ∧ w &&& 0x003F#16 ≠ 0#16) ∨ w &&& 0xE100#16 = 0x6100#16

/-! ### Machines that differ in byte order only (20_memory.md R43) -/

/-- Both bytes of the word at an even address have been written. -/
def wordWritten (s : State) (a : Word) : Bool :=
  (s.mem.read? a.toNat).isSome && (s.mem.read? (a.toNat + 1)).isSome

/-- The two states hold the same words: equal in everything but the byte order and the bytes of
memory, and in memory they agree on the word at every even address and on whether it is written. -/
structure SameWords (s t : State) : Prop where
  regs : ∀ q : Reg, t.readReg q = s.readReg q
  flags : SameFlags s t
  params : { t.cfg with byteOrder := s.cfg.byteOrder } = s.cfg
  words : ∀ a : Word, a.toNat % 2 = 0 → t.wordAt a = s.wordAt a
  written : ∀ a : Word, a.toNat % 2 = 0 → wordWritten t a = wordWritten s a

/-- Two outcomes a program cannot tell apart: next states with the same words, or one refusal. -/
def SameOutcome : Host.Outcome State Fault Refusal → Host.Outcome State Fault Refusal → Prop
  | .next s, .next t => SameWords s t
  | .refused r, .refused q => r = q
  | .fault e, .fault f => e = f
  | .next _, .refused _ => False
  | .next _, .fault _ => False
  | .refused _, .next _ => False
  | .refused _, .fault _ => False
  | .fault _, .next _ => False
  | .fault _, .refused _ => False

end Sys2Proof.Safety
end

