-- ==== Sys2Proof/Certificates/Slice0/Obligations.lean ====
section
/-! DEFINITION. The statements about IITB-RISC-23, each with the rule or section of spec/ it rests on.

Results are stated in the integers of the registers' contents, not with the model's own adder or
operand functions, wherever the spec gives a formula. Every statement about an instruction holds for
every register its fields can name: a destination R0 receives its value as the next PC (10_state.md
R22), which `readReg` of the state after reads back, and a source R0 reads the PC before (R21). Every
statement holds for every value of the open parameters, which stand in the state (assumption log 1). -/

open Sys2Proof Sys2Proof.Machine Sys2Proof.Safety

/-! ### Encoding (30_encoding.md) -/

/-- The fifteen words of 95_test_vectors.md 2.8 decode as that table says. -/
def Obligations.SampleWordsDecodeAsTabled : Prop :=
  decode 0x129F#16 = .ok (.acw .r1 .r2 .r3)
    ∧ decode 0x1299#16 = .ok (.adz .r1 .r2 .r3)
    ∧ decode 0x229A#16 = .ok (.ndc .r1 .r2 .r3)
    ∧ decode 0x02BF#16 = .ok (.adi .r1 .r2 0b111111#6)
    ∧ decode 0x02A0#16 = .ok (.adi .r1 .r2 0b100000#6)
    ∧ decode 0x4F82#16 = .ok (.lw .r7 .r6 0b000010#6)
    ∧ decode 0x86FD#16 = .ok (.beq .r3 .r3 0b111101#6)
    ∧ decode 0xA2BC#16 = .ok (.ble .r1 .r2 0b111100#6)
    ∧ decode 0x33FF#16 = .ok (.lli .r1 0b111111111#9)
    ∧ decode 0xCF00#16 = .ok (.jal .r7 0b100000000#9)
    ∧ decode 0xF2FF#16 = .ok (.jri .r1 0b011111111#9)
    ∧ decode 0x620C#16 = .ok (.lm .r1 0b00001100#8)
    ∧ decode 0x7241#16 = .ok (.sm .r1 0b01000001#8)
    ∧ decode 0x6CC0#16 = .ok (.lm .r6 0b11000000#8)
    ∧ decode 0xDDC0#16 = .ok (.jlr .r6 .r7)

/-- The headline of the encoding: a word decodes to an instruction exactly when it is that
instruction's encoding, for all 26 instructions and every operand; so no bit of an encoding is
dropped and none is ignored (R71: "there are no don't-care bits"). The same over bytes, in either
byte order: a byte sequence decodes to an instruction and a rest exactly when it is the instruction's
two bytes followed by that rest. -/
def Obligations.DecodeAndEncodeAreInverse : Prop :=
  (∀ (w : Word) (i : Instr), decode w = .ok i ↔ encode i = w)
    ∧ ∀ (o : ByteOrder) (bytes : List Byte) (i : Instr) (rest : List Byte),
        decodeBytes o bytes = .ok (i, rest) ↔ bytes = encodeBytes o i ++ rest

/-- R74: the encoding function as integers, format by format, and that it inverts the decoder. -/
def Obligations.EncodingIsTheIntegerFormula : Prop :=
  (∀ (ra rb rc : Reg) (p : Instr × Nat × Nat × Nat),
    p ∈ [(Instr.ada ra rb rc, 1, 0, 0), (Instr.adc ra rb rc, 1, 0, 2), (Instr.adz ra rb rc, 1, 0, 1),
         (Instr.awc ra rb rc, 1, 0, 3), (Instr.aca ra rb rc, 1, 1, 0), (Instr.acc ra rb rc, 1, 1, 2),
         (Instr.acz ra rb rc, 1, 1, 1), (Instr.acw ra rb rc, 1, 1, 3), (Instr.ndu ra rb rc, 2, 0, 0),
         (Instr.ndc ra rb rc, 2, 0, 2), (Instr.ndz ra rb rc, 2, 0, 1), (Instr.ncu ra rb rc, 2, 1, 0),
         (Instr.ncc ra rb rc, 2, 1, 2), (Instr.ncz ra rb rc, 2, 1, 1)] →
    (encode p.1).toNat =
      p.2.1 * 4096 + ra.num * 512 + rb.num * 64 + rc.num * 8 + p.2.2.1 * 4 + p.2.2.2)
  ∧ (∀ (ra rb : Reg) (imm6 : BitVec 6) (p : Instr × Nat),
    p ∈ [(Instr.adi ra rb imm6, 0), (Instr.lw ra rb imm6, 4), (Instr.sw ra rb imm6, 5),
         (Instr.beq ra rb imm6, 8), (Instr.blt ra rb imm6, 9), (Instr.ble ra rb imm6, 10)] →
    (encode p.1).toNat = p.2 * 4096 + ra.num * 512 + rb.num * 64 + imm6.toNat)
  ∧ (∀ (ra rb : Reg), (encode (.jlr ra rb)).toNat = 13 * 4096 + ra.num * 512 + rb.num * 64)
  ∧ (∀ (ra : Reg) (imm9 : BitVec 9) (p : Instr × Nat),
    p ∈ [(Instr.lli ra imm9, 3), (Instr.jal ra imm9, 12), (Instr.jri ra imm9, 15)] →
    (encode p.1).toNat = p.2 * 4096 + ra.num * 512 + imm9.toNat)
  ∧ (∀ (ra : Reg) (mask8 : BitVec 8) (p : Instr × Nat),
    p ∈ [(Instr.lm ra mask8, 6), (Instr.sm ra mask8, 7)] →
    (encode p.1).toNat = p.2 * 4096 + ra.num * 512 + mask8.toNat)
  ∧ ∀ i : Instr, decode (encode i) = .ok i

/-- R66: a word decodes to an instruction of a row exactly when it is the row's value under the row's
mask; no word meets two rows, and the words that meet none are exactly the reserved words. -/
def Obligations.OpcodeRowsSelectTheInstruction : Prop :=
  (∀ (w : Word) (i : Instr), decode w = .ok i → w &&& i.row.mask = i.row.value)
    ∧ (∀ (w : Word) (i : Instr), w &&& i.row.mask = i.row.value →
        ∃ j : Instr, decode w = .ok j ∧ j.row = i.row)
    ∧ (∀ (w : Word) (i j : Instr), w &&& i.row.mask = i.row.value → w &&& j.row.mask = j.row.value →
        i.row = j.row)
    ∧ ∀ w : Word, (∀ i : Instr, w &&& i.row.mask ≠ i.row.value) ↔ reservedWord w

/-- The words the decoder rejects are exactly those of the table of reserved words, and the step
refuses a fetched one. -/
def Obligations.ReservedWordsAreRejectedAndRefused : Prop :=
  (∀ w : Word, (∃ e, decode w = .error e) ↔ reservedWord w)
    ∧ ∀ (s : State) (lower upper : Byte),
        s.pc.toNat % 2 = 0 → s.cfg.mapped s.pc = true →
        s.mem.read? s.pc.toNat = some lower → s.mem.read? (s.pc.toNat + 1) = some upper →
        reservedWord (joinWord s.cfg.byteOrder lower upper) →
        step s = .refused .reservedEncoding

/-- R75: the assembly line of each row, mnemonic and operands in the order the line writes them; and
a line is read as an instruction exactly when it is that instruction's line, or is `jalr` with JAL's
operands (D24). That a line is a mnemonic with operand values, and that a line of any other form, such
as one with an operand out of its field's range or of another kind, is read as no instruction, are the
model's choices (DESIGN CHOICE, assumption log 12). -/
def Obligations.AssemblyLinesStandForTheirInstruction : Prop :=
  (∀ (ra rb rc : Reg) (p : Instr × String),
    p ∈ [(Instr.ada ra rb rc, "ada"), (Instr.adc ra rb rc, "adc"), (Instr.adz ra rb rc, "adz"),
         (Instr.awc ra rb rc, "awc"), (Instr.aca ra rb rc, "aca"), (Instr.acc ra rb rc, "acc"),
         (Instr.acz ra rb rc, "acz"), (Instr.acw ra rb rc, "acw"), (Instr.ndu ra rb rc, "ndu"),
         (Instr.ndc ra rb rc, "ndc"), (Instr.ndz ra rb rc, "ndz"), (Instr.ncu ra rb rc, "ncu"),
         (Instr.ncc ra rb rc, "ncc"), (Instr.ncz ra rb rc, "ncz")] →
    disassemble p.1 = ⟨p.2, [.reg rc, .reg ra, .reg rb]⟩)
  ∧ (∀ (ra rb : Reg) (imm6 : BitVec 6),
    disassemble (.adi ra rb imm6) = ⟨"adi", [.reg rb, .reg ra, .imm imm6.toInt]⟩)
  ∧ (∀ (ra rb : Reg) (imm6 : BitVec 6) (p : Instr × String),
    p ∈ [(Instr.lw ra rb imm6, "lw"), (Instr.sw ra rb imm6, "sw"), (Instr.beq ra rb imm6, "beq"),
         (Instr.blt ra rb imm6, "blt"), (Instr.ble ra rb imm6, "ble")] →
    disassemble p.1 = ⟨p.2, [.reg ra, .reg rb, .imm imm6.toInt]⟩)
  ∧ (∀ (ra : Reg) (imm9 : BitVec 9),
    disassemble (.lli ra imm9) = ⟨"lli", [.reg ra, .imm imm9.toNat]⟩
    ∧ disassemble (.jal ra imm9) = ⟨"jal", [.reg ra, .imm imm9.toInt]⟩
    ∧ disassemble (.jri ra imm9) = ⟨"jri", [.reg ra, .imm imm9.toInt]⟩)
  ∧ (∀ (ra : Reg) (mask8 : BitVec 8),
    disassemble (.lm ra mask8) = ⟨"lm", [.reg ra, .mask mask8]⟩
    ∧ disassemble (.sm ra mask8) = ⟨"sm", [.reg ra, .mask mask8]⟩)
  ∧ (∀ ra rb : Reg, disassemble (.jlr ra rb) = ⟨"jlr", [.reg ra, .reg rb]⟩)
  ∧ ∀ (l : AsmLine) (i : Instr), assemble l = some i ↔
      l = disassemble i
        ∨ ∃ (ra : Reg) (imm9 : BitVec 9), l = ⟨"jalr", [.reg ra, .imm imm9.toInt]⟩ ∧ i = .jal ra imm9

/-! ### The step (10_state.md R23 to R25, 60_exceptions.md R220 to R223) -/

/-- When the word at an even, mapped PC is written and decodes, the step is that instruction's
meaning, with nothing added around it. -/
def Obligations.StepRunsTheDecodedInstruction : Prop :=
  ∀ (s : State) (lower upper : Byte) (i : Instr),
    s.pc.toNat % 2 = 0 → s.cfg.mapped s.pc = true →
    s.mem.read? s.pc.toNat = some lower → s.mem.read? (s.pc.toNat + 1) = some upper →
    decode (joinWord s.cfg.byteOrder lower upper) = .ok i →
    step s = exec i s

/-- A word the host places at the PC is the instruction the next step runs, in either byte order. -/
def Obligations.PlacedWordIsTheNextInstruction : Prop :=
  ∀ (s : State) (w : Word) (i : Instr),
    s.pc.toNat % 2 = 0 → s.cfg.mapped s.pc = true → decode w = .ok i →
    step (s.placeWord s.pc w) = exec i (s.placeWord s.pc w)
      ∧ step (s.withFetchWord 16 w.toNat) = exec i (s.withFetchWord 16 w.toNat)

/-- What the step refuses before any instruction runs, in R223's order: an odd PC, then a PC outside
MEM_MAP, then a word that nothing has written. (That a fetch of an unwritten word refuses is the
choice R32 and U11 leave to a model; DESIGN CHOICE, assumption log 3.) -/
def Obligations.FetchRefusesInOrder : Prop :=
  ∀ s : State,
    (s.pc.toNat % 2 = 1 → step s = .refused .misalignedFetch)
      ∧ (s.pc.toNat % 2 = 0 → s.cfg.mapped s.pc = false → step s = .refused .unmappedAccess)
      ∧ (s.pc.toNat % 2 = 0 → s.cfg.mapped s.pc = true → wordWritten s s.pc = false →
          step s = .refused .unwrittenRead)

/-- A step never faults, and when it is refused the reason and its condition are of R221's table, the
instruction being the one at the PC and the address one that it accesses. (That a fetch of an
unwritten word is among them is the model's choice; DESIGN CHOICE, assumption log 3.) -/
def Obligations.StepStopsOnlyAsListed : Prop :=
  (∀ (s : State) (f : Fault), step s ≠ .fault f)
    ∧ ∀ (s : State) (r : Refusal), step s = .refused r →
      (r = .misalignedFetch ∧ s.pc.toNat % 2 = 1)
      ∨ (r = .unmappedAccess ∧ s.cfg.mapped s.pc = false)
      ∨ (r = .unwrittenRead ∧ wordWritten s s.pc = false)
      ∨ (r = .reservedEncoding ∧ reservedWord (s.wordAt s.pc))
      ∨ ∃ i : Instr, decode (s.wordAt s.pc) = .ok i
          ∧ ((r = .doublePcWrite ∧ ((∃ imm9, i = .jal .r0 imm9) ∨ ∃ rb, i = .jlr .r0 rb))
            ∨ (r = .misalignedAccess ∧ ∃ a ∈ accessedBy i s, a.toNat % 2 = 1)
            ∨ (r = .unmappedAccess ∧ ∃ a ∈ accessedBy i s, s.cfg.mapped a = false))

/-- JAL and JLR with RA = R0 are refused, in every state. -/
def Obligations.LinkIntoProgramCounterIsRefused : Prop :=
  ∀ (s : State) (imm9 : BitVec 9) (rb : Reg),
    exec (.jal .r0 imm9) s = .refused .doublePcWrite
      ∧ exec (.jlr .r0 rb) s = .refused .doublePcWrite

/-- R25: the PC keeps its parity but through a write of R0, JLR and JRI; these complete also with an odd
target (JLR and JRI through a register with an odd content, ADI into R0 with an odd sum, LLI into R0
with an odd immediate), and the step after any instruction that leaves an odd PC is refused. -/
def Obligations.OddTargetIsKeptThenRefused : Prop :=
  (∀ (i : Instr) (s t : State), exec i s = .next t → .r0 ∉ destinations i →
    (∀ ra rb : Reg, i ≠ .jlr ra rb) → (∀ (ra : Reg) (imm9 : BitVec 9), i ≠ .jri ra imm9) →
    t.pc.toNat % 2 = s.pc.toNat % 2)
  ∧ (∀ (s : State) (ra rb : Reg) (imm9 : BitVec 9) (imm6 : BitVec 6) (i : Instr),
    ((ra ≠ .r0 ∧ (s.readReg rb).toNat % 2 = 1 ∧ i = .jlr ra rb)
      ∨ ((s.readReg ra).toNat % 2 = 1 ∧ i = .jri ra imm9)
      ∨ (((s.readReg ra).toNat + imm6.toNat) % 2 = 1 ∧ i = .adi ra .r0 imm6)
      ∨ (imm9.toNat % 2 = 1 ∧ i = .lli .r0 imm9)) →
    ∃ t, exec i s = .next t ∧ t.pc.toNat % 2 = 1)
  ∧ ∀ (i : Instr) (s t : State), exec i s = .next t → t.pc.toNat % 2 = 1 →
    step t = .refused .misalignedFetch

/-! ### The whole machine -/

/-- The invariant is kept by every step from every state: memory stays in its canonical form, and
words are written whole. (That memory is a list of bytes in such a form is the model's choice; DESIGN
CHOICE, assumption log 7.) -/
def Obligations.StepKeepsTheInvariant : Prop :=
  ∀ s t : State, StateInv s → step s = .next t → StateInv t

/-- The invariant holds right after reset. -/
def Obligations.ResetMeetsTheInvariant : Prop := StateInv State.reset

/-- The host's load of words at even addresses keeps the invariant. -/
def Obligations.HostLoadKeepsTheInvariant : Prop :=
  ∀ (s : State) (image : List (Word × Word)), StateInv s → (∀ p ∈ image, p.1.toNat % 2 = 0) →
    StateInv (s.loadWords image)

/-- In the canonical form, memories that read alike are equal data. (The form is the model's;
DESIGN CHOICE, assumption log 7.) -/
def Obligations.CanonicalMemoriesAreDeterminedByTheirBytes : Prop :=
  ∀ m n : Memory, m.wf → n.wf → (∀ a : Nat, m.read? a = n.read? a) → m = n

/-- No step changes a parameter of the machine. -/
def Obligations.StepKeepsTheParameters : Prop :=
  ∀ s t : State, step s = .next t → t.cfg = s.cfg

/-- R27 with R26: after every instruction C and Z are as the table says, written with the carry out
and the zero test of the value written, or unchanged; a false condition changes neither. -/
def Obligations.FlagsAreWrittenAsTabled : Prop :=
  ∀ (i : Instr) (s t : State), exec i s = .next t →
    t.c = carryAfter i s ∧ t.z = zeroAfter i s t

/-- R28: an instruction that the rule does not name as a reader of a flag gives the same registers,
the same other flag, the same memory and the same refusal whatever that flag was; one that it names as
conditioned on the flag does nothing but go on when the flag is 0. -/
def Obligations.FlagsAreReadAsTabled : Prop :=
  (∀ (i : Instr) (s : State) (b : Bool), readsCarry i = false →
    mapNext (fun t => t.setFlags false t.z) (exec i (s.setFlags b s.z))
      = mapNext (fun t => t.setFlags false t.z) (exec i s))
  ∧ (∀ (i : Instr) (s : State) (b : Bool), readsZero i = false →
    mapNext (fun t => t.setZ false) (exec i (s.setZ b)) = mapNext (fun t => t.setZ false) (exec i s))
  ∧ (∀ (ra rb rc : Reg) (s : State) (i : Instr), s.c = false →
    i ∈ [Instr.adc ra rb rc, Instr.acc ra rb rc, Instr.ndc ra rb rc, Instr.ncc ra rb rc] →
    exec i s = .next (s.setPc (s.pc + 2#16)))
  ∧ (∀ (ra rb rc : Reg) (s : State) (i : Instr), s.z = false →
    i ∈ [Instr.adz ra rb rc, Instr.acz ra rb rc, Instr.ndz ra rb rc, Instr.ncz ra rb rc] →
    exec i s = .next (s.setPc (s.pc + 2#16)))
  ∧ ∀ (ra rb rc : Reg) (s t : State),
    (exec (.awc ra rb rc) s = .next t →
      t.readReg rc = s.readReg ra + s.readReg rb + (if s.c then 1 else 0))
    ∧ (exec (.acw ra rb rc) s = .next t →
      t.readReg rc = s.readReg ra + ~~~s.readReg rb + (if s.c then 1 else 0))

/-- Only LW, SW, LM and SM touch memory: no other instruction's outcome depends on it or changes it,
and LW and LM change no byte. -/
def Obligations.OnlyLoadsAndStoresTouchMemory : Prop :=
  (∀ (i : Instr) (s : State) (m : Memory), touchesMemory i = false →
    exec i (s.setMem m) = mapNext (fun t => t.setMem m) (exec i s))
  ∧ ∀ (i : Instr) (s t : State), ¬ isStore i → exec i s = .next t → SameBytes s t

/-- No instruction changes one of R1 to R7 except by naming it as its destination. -/
def Obligations.RegistersChangeOnlyAsDestinations : Prop :=
  ∀ (i : Instr) (s t : State), exec i s = .next t → SameRegsBut (destinations i) s t

/-- Every instruction that is no branch or jump and has no destination R0 goes on at `pc + 2`, modulo
2^16. -/
def Obligations.OtherInstructionsGoOnAtTheNextWord : Prop :=
  ∀ (i : Instr) (s t : State), branchesOrJumps i = false → .r0 ∉ destinations i →
    exec i s = .next t → GoesOn s t

/-- The register file: R0 is the PC, a write is read back, and no register shares storage with
another. -/
def Obligations.RegistersAreEightSeparateCells : Prop :=
  ∀ (s : State) (v : Word) (p q : Reg),
    s.readReg .r0 = s.pc ∧ (s.writeReg .r0 v).pc = v ∧ (s.writeReg p v).readReg p = v
      ∧ (p ≠ q → (s.writeReg p v).readReg q = s.readReg q)

/-- No program can observe the byte order: two machines that hold the same words, whatever bytes they
hold them in, take the same step, to the same words or to the same refusal (R43). (That a word nothing
has written reads alike in both orders is the model's choice; DESIGN CHOICE, assumption log 3.) -/
def Obligations.ByteOrderIsUnobservable : Prop :=
  ∀ s t : State, SameWords s t → SameOutcome (step s) (step t)

/-- A word's two bytes: the byte at the lower address is the low one for little and the high one for
big. -/
def Obligations.WordIsItsTwoBytesInOrder : Prop :=
  ∀ (s : State) (a : Word),
    (s.cfg.byteOrder = .little →
      (s.wordAt a).toNat = (s.byteAt (a.toNat + 1)).toNat * 256 + (s.byteAt a.toNat).toNat)
    ∧ (s.cfg.byteOrder = .big →
      (s.wordAt a).toNat = (s.byteAt a.toNat).toNat * 256 + (s.byteAt (a.toNat + 1)).toNat)

/-! ### ADD group and ADI (41_add.md) -/

/-- R100 for each of the eight: when the condition holds, the destination receives the low 16 bits of
the exact sum of RA, RB (complemented when K = 1) and the carry in, C its bit 16, Z its zero test; when
it does not, only the PC advances. Nothing else changes. -/
def Obligations.AddGroupResultFlagsAndFrame : Prop :=
  ∀ (s : State) (ra rb rc : Reg) (i : Instr) (executes : Bool) (b cin : Nat),
    (i, executes, b, cin) ∈
      [(Instr.ada ra rb rc, true, (s.readReg rb).toNat, 0),
       (Instr.adc ra rb rc, s.c, (s.readReg rb).toNat, 0),
       (Instr.adz ra rb rc, s.z, (s.readReg rb).toNat, 0),
       (Instr.awc ra rb rc, true, (s.readReg rb).toNat, if s.c then 1 else 0),
       (Instr.aca ra rb rc, true, 65535 - (s.readReg rb).toNat, 0),
       (Instr.acc ra rb rc, s.c, 65535 - (s.readReg rb).toNat, 0),
       (Instr.acz ra rb rc, s.z, 65535 - (s.readReg rb).toNat, 0),
       (Instr.acw ra rb rc, true, 65535 - (s.readReg rb).toNat, if s.c then 1 else 0)] →
    ∃ t, exec i s = .next t ∧ SameBytes s t ∧ t.cfg = s.cfg
      ∧ (executes = true →
          (t.readReg rc).toNat = ((s.readReg ra).toNat + b + cin) % 65536
          ∧ t.c = decide (65536 ≤ (s.readReg ra).toNat + b + cin)
          ∧ t.z = decide (((s.readReg ra).toNat + b + cin) % 65536 = 0)
          ∧ SameRegsBut [rc] s t ∧ (rc ≠ .r0 → GoesOn s t))
      ∧ (executes = false → SameFlags s t ∧ SameRegsBut [] s t ∧ GoesOn s t)

/-- R109: ADI adds the sign-extended immediate to RA into RB, with C the carry out of that unsigned
addition. -/
def Obligations.AddImmediateResultFlagsAndFrame : Prop :=
  ∀ (s : State) (ra rb : Reg) (imm6 : BitVec 6) (n : Nat),
    n = (s.readReg ra).toNat + (if imm6.toNat < 32 then imm6.toNat else imm6.toNat + 65472) →
    ∃ t, exec (.adi ra rb imm6) s = .next t
      ∧ (t.readReg rb).toNat = n % 65536 ∧ t.c = decide (65536 ≤ n) ∧ t.z = decide (n % 65536 = 0)
      ∧ SameRegsBut [rb] s t ∧ (rb ≠ .r0 → GoesOn s t) ∧ SameBytes s t ∧ t.cfg = s.cfg

/-- The complement addition compares: ACA gives `x[RA] - x[RB] - 1`, and C = 1 exactly when
`u(x[RA]) > u(x[RB])`. -/
def Obligations.ComplementAddSubtractsLessOne : Prop :=
  ∀ (s : State) (ra rb rc : Reg), ∃ t, exec (.aca ra rb rc) s = .next t
    ∧ t.readReg rc = s.readReg ra - s.readReg rb - 1#16
    ∧ t.c = decide ((s.readReg rb).toNat < (s.readReg ra).toNat)
    ∧ (ra = rb → t.readReg rc = 0xFFFF#16 ∧ t.c = false ∧ t.z = false)

/-- ACW subtracts: with C = 1 before, the result is `x[RA] - x[RB]`, the new C = 1 exactly when there
is no borrow and Z = 1 exactly when the operands are equal; with C = 0 before, it equals ACA. -/
def Obligations.ComplementAddWithCarrySubtracts : Prop :=
  ∀ (s : State) (ra rb rc : Reg), ∃ t, exec (.acw ra rb rc) s = .next t
    ∧ (s.c = true → t.readReg rc = s.readReg ra - s.readReg rb
        ∧ t.c = decide ((s.readReg rb).toNat ≤ (s.readReg ra).toNat)
        ∧ t.z = decide (s.readReg ra = s.readReg rb))
    ∧ (s.c = false → exec (.aca ra rb rc) s = .next t)

/-- ADA on the low halves followed by AWC on the high halves adds 32-bit numbers, with the carry out
of the whole sum in C. -/
def Obligations.CarryChainsAddThirtyTwoBits : Prop :=
  ∀ (s : State) (alo ahi blo bhi dlo dhi : Reg),
    dlo ≠ .r0 → ahi ≠ .r0 → bhi ≠ .r0 → dlo ≠ ahi → dlo ≠ bhi → dhi ≠ dlo →
    ∃ t u, exec (.ada alo blo dlo) s = .next t ∧ exec (.awc ahi bhi dhi) t = .next u
      ∧ pairValue u dhi dlo = (pairValue s ahi alo + pairValue s bhi blo) % 4294967296
      ∧ u.c = decide (4294967296 ≤ pairValue s ahi alo + pairValue s bhi blo)

/-- With C = 1 before, ACW on the low halves followed by ACW on the high halves subtracts 32-bit
numbers, C = 1 after exactly when there is no borrow. -/
def Obligations.CarryChainsSubtractThirtyTwoBits : Prop :=
  ∀ (s : State) (alo ahi blo bhi dlo dhi : Reg), s.c = true →
    dlo ≠ .r0 → ahi ≠ .r0 → bhi ≠ .r0 → dlo ≠ ahi → dlo ≠ bhi → dhi ≠ dlo →
    ∃ t u, exec (.acw alo blo dlo) s = .next t ∧ exec (.acw ahi bhi dhi) t = .next u
      ∧ pairValue u dhi dlo
        = (pairValue s ahi alo + 4294967296 - pairValue s bhi blo) % 4294967296
      ∧ u.c = decide (pairValue s bhi blo ≤ pairValue s ahi alo)

/-! ### NAND group (42_nand.md) -/

/-- R120 for each of the six, bit by bit: when the condition holds, each bit of the destination is the
NAND of RA's and RB's bit (RB's complemented when K = 1), Z the zero test of the result, C unchanged;
when it does not, only the PC advances. Nothing else changes. A condition of 11 has no meaning. -/
def Obligations.NandGroupResultFlagsAndFrame : Prop :=
  (∀ (s : State) (k : Bool) (ra rb rc : Reg),
    nandGroup k .withCarry ra rb rc s = .refused .reservedEncoding)
  ∧ ∀ (s : State) (ra rb rc : Reg) (i : Instr) (executes k : Bool),
    (i, executes, k) ∈
      [(Instr.ndu ra rb rc, true, false), (Instr.ndc ra rb rc, s.c, false),
       (Instr.ndz ra rb rc, s.z, false), (Instr.ncu ra rb rc, true, true),
       (Instr.ncc ra rb rc, s.c, true), (Instr.ncz ra rb rc, s.z, true)] →
    ∃ t, exec i s = .next t ∧ SameBytes s t ∧ t.cfg = s.cfg ∧ t.c = s.c
      ∧ (executes = true →
          (∀ j : Nat, j < 16 → (t.readReg rc).getLsbD j =
            !((s.readReg ra).getLsbD j && ((s.readReg rb).getLsbD j != k)))
          ∧ t.z = decide (t.readReg rc = 0#16)
          ∧ SameRegsBut [rc] s t ∧ (rc ≠ .r0 → GoesOn s t))
      ∧ (executes = false → t.z = s.z ∧ SameRegsBut [] s t ∧ GoesOn s t)

/-- NDU of a register with itself complements it; NCU is the OR of the complement of RA with RB. -/
def Obligations.NandComplementsAndNcuIsOr : Prop :=
  ∀ (s : State) (ra rb rc : Reg),
    (∃ t, exec (.ndu ra ra rc) s = .next t ∧ t.readReg rc = ~~~s.readReg ra)
    ∧ ∃ t, exec (.ncu ra rb rc) s = .next t ∧ t.readReg rc = (~~~s.readReg ra ||| s.readReg rb)
        ∧ (t.z = true ↔ s.readReg ra = 0xFFFF#16 ∧ s.readReg rb = 0x0000#16)

/-! ### LLI, LW, SW (43_lli_load_store.md) -/

/-- R140: LLI writes the whole register with the zero-extended immediate and no flag. -/
def Obligations.LoadLowerImmediateResultAndFrame : Prop :=
  ∀ (s : State) (ra : Reg) (imm9 : BitVec 9),
    ∃ t, exec (.lli ra imm9) s = .next t ∧ (t.readReg ra).toNat = imm9.toNat
      ∧ SameFlags s t ∧ SameRegsBut [ra] s t ∧ (ra ≠ .r0 → GoesOn s t) ∧ SameBytes s t
      ∧ t.cfg = s.cfg

/-- R143: the effective address is the sum of base and signed displacement modulo 2^16, and it is even
exactly when base and displacement have the same parity. -/
def Obligations.EffectiveAddressIsBasePlusDisplacement : Prop :=
  ∀ (base : Word) (imm6 : BitVec 6),
    ((effectiveAddress base imm6).toNat : Int) = ((base.toNat : Int) + imm6.toInt) % 65536
    ∧ ((effectiveAddress base imm6).toNat % 2 = 0 ↔ base.toNat % 2 = imm6.toNat % 2)

/-- R141: at an even, mapped address LW writes the word there to RA and its zero test to Z; C and
memory are unchanged. A word that nothing has written is some word, the same at every read (DESIGN
CHOICE, assumption log 3). -/
def Obligations.LoadWordResultFlagsAndFrame : Prop :=
  ∀ (s : State) (ra rb : Reg) (imm6 : BitVec 6) (ea : Word),
    ea = BitVec.ofInt 16 ((s.readReg rb).toNat + imm6.toInt) → Accessible s ea →
    ∃ t, exec (.lw ra rb imm6) s = .next t ∧ t.readReg ra = s.wordAt ea
      ∧ t.z = decide (s.wordAt ea = 0#16) ∧ t.c = s.c
      ∧ SameRegsBut [ra] s t ∧ (ra ≠ .r0 → GoesOn s t) ∧ SameBytes s t ∧ t.cfg = s.cfg

/-- R142: at an even, mapped address SW stores RA, as it was before, in the two bytes at the effective
address; every other byte, every register and both flags are unchanged. -/
def Obligations.StoreWordResultAndFrame : Prop :=
  ∀ (s : State) (ra rb : Reg) (imm6 : BitVec 6) (ea : Word),
    ea = effectiveAddress (s.readReg rb) imm6 → Accessible s ea →
    ∃ t, exec (.sw ra rb imm6) s = .next t ∧ t.wordAt ea = s.readReg ra ∧ wordWritten t ea = true
      ∧ (∀ a : Nat, a ≠ ea.toNat → a ≠ ea.toNat + 1 → t.mem.read? a = s.mem.read? a)
      ∧ SameRegsBut [] s t ∧ GoesOn s t ∧ SameFlags s t ∧ t.cfg = s.cfg

/-- LW and SW at an odd address are refused as misaligned; at an even address outside MEM_MAP, as
unmapped. -/
def Obligations.LoadAndStoreRefuseBadAddresses : Prop :=
  ∀ (s : State) (ra rb : Reg) (imm6 : BitVec 6) (ea : Word) (i : Instr),
    ea = effectiveAddress (s.readReg rb) imm6 →
    i ∈ [Instr.lw ra rb imm6, Instr.sw ra rb imm6] →
    (ea.toNat % 2 = 1 → exec i s = .refused .misalignedAccess)
    ∧ (ea.toNat % 2 = 0 → s.cfg.mapped ea = false → exec i s = .refused .unmappedAccess)

/-- A load right after a store to the same address returns the word stored. -/
def Obligations.LoadAfterStoreReturnsTheWord : Prop :=
  ∀ (s t : State) (ra rb rd re : Reg) (imm6 jmm6 : BitVec 6),
    exec (.sw ra rb imm6) s = .next t →
    effectiveAddress (t.readReg re) jmm6 = effectiveAddress (s.readReg rb) imm6 →
    ∃ u, exec (.lw rd re jmm6) t = .next u ∧ u.readReg rd = s.readReg ra

/-- Storing a word twice leaves the same state as storing it once: the SW run again at the same PC
changes nothing further. -/
def Obligations.StoringTwiceIsStoringOnce : Prop :=
  ∀ (s t : State) (ra rb : Reg) (imm6 : BitVec 6), s.mem.wf →
    exec (.sw ra rb imm6) s = .next t →
    exec (.sw ra rb imm6) (t.setPc s.pc) = .next t

/-- A store to the next instruction's address, by SW or as one of the words of an SM, is seen by the
next fetch (the first sentence of R53, which the model takes; DESIGN CHOICE, assumption log 6). -/
def Obligations.StoreIsSeenByTheNextFetch : Prop :=
  (∀ (s t : State) (ra rb : Reg) (imm6 : BitVec 6) (j : Instr),
    exec (.sw ra rb imm6) s = .next t → effectiveAddress (s.readReg rb) imm6 = t.pc →
    decode (s.readReg ra) = .ok j → step t = exec j t)
  ∧ ∀ (s t : State) (ra q : Reg) (mask8 : BitVec 8) (k : Nat) (j : Instr),
    exec (.sm ra mask8) s = .next t → (transferOrder mask8)[k]? = some q →
    sequenceAddress (s.readReg ra) k = t.pc → decode (s.readReg q) = .ok j → step t = exec j t

/-- The cautious step, which R53 advises and which is not this model's step (DESIGN CHOICE, assumption
log 6). Where it goes on, it goes where the step goes, and its record is then the words recorded before
together with the words that this instruction stores. At a PC that is not recorded it answers as the
step does; a fetch of a recorded word, at an even and mapped PC, is refused as FetchAfterStore. -/
def Obligations.CautiousStepAgreesOrRefuses : Prop :=
  (∀ (stored stored' : List Word) (s t : State),
    cautiousStep stored s = .next (stored', t) →
    step s = .next t ∧ s.pc ∉ stored
      ∧ ∃ i : Instr, decode (s.wordAt s.pc) = .ok i
          ∧ ∀ w : Word, w ∈ stored' ↔ w ∈ stored ∨ w ∈ storedBy i s)
  ∧ (∀ (stored : List Word) (s t : State), s.pc ∉ stored → step s = .next t →
    ∃ stored', cautiousStep stored s = .next (stored', t))
  ∧ (∀ (stored : List Word) (s : State) (r : Refusal), s.pc ∉ stored → step s = .refused r →
    cautiousStep stored s = .refused r)
  ∧ ∀ (stored : List Word) (s : State), s.pc ∈ stored → Accessible s s.pc →
    wordWritten s s.pc = true → cautiousStep stored s = .refused .fetchAfterStore

/-- The words an instruction stores, as the cautious step records them, a word stored with the value
it already holds among them: SW's effective address, SM's address sequence, and for every other
instruction none; no byte outside them changes. -/
def Obligations.StoredWordsAreThoseOfSwAndSm : Prop :=
  (∀ (s : State) (ra rb : Reg) (imm6 : BitVec 6) (w : Word),
    w ∈ storedBy (.sw ra rb imm6) s ↔ (w.toNat : Int) = ((s.readReg rb).toNat + imm6.toInt) % 65536)
  ∧ (∀ (s : State) (ra : Reg) (mask8 : BitVec 8) (w : Word),
    w ∈ storedBy (.sm ra mask8) s ↔ ∃ k : Nat, k < (transferOrder mask8).length
      ∧ w.toNat = ((s.readReg ra).toNat + 2 * k) % 65536)
  ∧ (∀ (s : State) (i : Instr), ¬ isStore i → storedBy i s = [])
  ∧ ∀ (s t : State) (i : Instr), exec i s = .next t →
    (∀ w ∈ storedBy i s, wordWritten t w = true)
    ∧ ∀ a : Nat, (∀ w ∈ storedBy i s, a ≠ w.toNat ∧ a ≠ w.toNat + 1) →
      t.mem.read? a = s.mem.read? a

/-! ### LM and SM (44_load_store_multiple.md) -/

/-- R160: the sequence holds exactly the registers whose mask bit (bit 7 for R0, bit 0 for R7) is 1,
from R7 down to R0. -/
def Obligations.TransferOrderIsFromSevenDownToZero : Prop :=
  ∀ (mask8 : BitVec 8),
    (∀ q : Reg, q ∈ transferOrder mask8 ↔ mask8.getLsbD (7 - q.num) = true)
    ∧ (transferOrder mask8).Pairwise fun p q => q.num < p.num

/-- R161: when every address of the sequence is even and mapped, LM loads the k-th selected register
with the word at `x[RA] + 2*k` modulo 2^16, the base read before any load; no flag and no byte of
memory changes. An empty mask only advances the PC. Two points are the model's: a word that nothing
has written loads as some word, the same at every read, where R32 and U11 leave it open (DESIGN
CHOICE, assumption log 3); and an LM that loads its own base register, or R0 beside others, runs as
R161 defines it, where U17 lets a model refuse (DESIGN CHOICE, assumption log 10). -/
def Obligations.LoadMultipleResultAndFrame : Prop :=
  ∀ (s : State) (ra : Reg) (mask8 : BitVec 8),
    (∀ k : Nat, k < (transferOrder mask8).length →
      Accessible s (sequenceAddress (s.readReg ra) k)) →
    ∃ t, exec (.lm ra mask8) s = .next t
      ∧ (∀ (k : Nat) (q : Reg), (transferOrder mask8)[k]? = some q →
          t.readReg q = s.wordAt (sequenceAddress (s.readReg ra) k))
      ∧ SameRegsBut (transferOrder mask8) s t ∧ (.r0 ∉ transferOrder mask8 → GoesOn s t)
      ∧ SameFlags s t ∧ SameBytes s t ∧ t.cfg = s.cfg

/-- R162: when every address of the sequence is even and mapped, SM stores the k-th selected register,
as it was before, at `x[RA] + 2*k` modulo 2^16 (R0 stores the PC); every other byte, every register
and both flags are unchanged. -/
def Obligations.StoreMultipleResultAndFrame : Prop :=
  ∀ (s : State) (ra : Reg) (mask8 : BitVec 8),
    (∀ k : Nat, k < (transferOrder mask8).length →
      Accessible s (sequenceAddress (s.readReg ra) k)) →
    ∃ t, exec (.sm ra mask8) s = .next t
      ∧ (∀ (k : Nat) (q : Reg), (transferOrder mask8)[k]? = some q →
          t.wordAt (sequenceAddress (s.readReg ra) k) = s.readReg q
          ∧ wordWritten t (sequenceAddress (s.readReg ra) k) = true)
      ∧ (∀ a : Nat, (∀ k : Nat, k < (transferOrder mask8).length →
            a ≠ (sequenceAddress (s.readReg ra) k).toNat
            ∧ a ≠ (sequenceAddress (s.readReg ra) k).toNat + 1) →
          t.mem.read? a = s.mem.read? a)
      ∧ SameRegsBut [] s t ∧ GoesOn s t ∧ SameFlags s t ∧ t.cfg = s.cfg

/-- R56: when one access of an LM or SM has no meaning the whole step is refused: as misaligned when
the base is odd and a register is selected, as unmapped when the base is even and some address of the
sequence is outside MEM_MAP. -/
def Obligations.MultipleTransfersRefuseAsAWhole : Prop :=
  ∀ (s : State) (ra : Reg) (mask8 : BitVec 8) (i : Instr),
    i ∈ [Instr.lm ra mask8, Instr.sm ra mask8] →
    ((s.readReg ra).toNat % 2 = 1 → mask8 ≠ 0#8 → exec i s = .refused .misalignedAccess)
    ∧ ((s.readReg ra).toNat % 2 = 0 →
        (∃ k : Nat, k < (transferOrder mask8).length
          ∧ s.cfg.mapped (sequenceAddress (s.readReg ra) k) = false) →
        exec i s = .refused .unmappedAccess)

/-- R163, which the spec infers from R161 and R162: an SM followed, in any state with that memory, by an
LM with the same mask and the same base value restores every selected register R1 to R7, and for R0
jumps back to the SM. An LM that loads its own base register, or R0 beside others, runs as R161
defines it, where U17 lets a model refuse (DESIGN CHOICE, assumption log 10). -/
def Obligations.LoadMultipleRestoresWhatStoreMultipleSaved : Prop :=
  ∀ (s t u : State) (ra rb : Reg) (mask8 : BitVec 8),
    exec (.sm ra mask8) s = .next t → u.mem = t.mem → u.cfg = t.cfg →
    u.readReg rb = s.readReg ra →
    ∃ v, exec (.lm rb mask8) u = .next v
      ∧ (∀ q : Reg, q ≠ .r0 → q ∈ transferOrder mask8 → v.readReg q = s.readReg q)
      ∧ (.r0 ∈ transferOrder mask8 → v.pc = s.pc)

/-! ### Branches (45_branch.md) -/

/-- R180 for BEQ, BLT and BLE: a taken branch goes to the branch's own address plus twice the signed
immediate, modulo 2^16, a branch not taken to `pc + 2`; the comparison of BLT and BLE is of signed or
of unsigned numbers as CMP_SIGNED says. No register, flag or byte of memory changes. -/
def Obligations.BranchTargetConditionAndFrame : Prop :=
  ∀ (s : State) (ra rb : Reg) (imm6 : BitVec 6) (i : Instr) (taken : Bool),
    (i, taken) ∈
      [(Instr.beq ra rb imm6, decide ((s.readReg ra).toNat = (s.readReg rb).toNat)),
       (Instr.blt ra rb imm6,
        if s.cfg.cmpSigned then decide ((s.readReg ra).toInt < (s.readReg rb).toInt)
        else decide ((s.readReg ra).toNat < (s.readReg rb).toNat)),
       (Instr.ble ra rb imm6,
        if s.cfg.cmpSigned then decide ((s.readReg ra).toInt ≤ (s.readReg rb).toInt)
        else decide ((s.readReg ra).toNat ≤ (s.readReg rb).toNat))] →
    ∃ t, exec i s = .next t
      ∧ (taken = true → (t.pc.toNat : Int) = ((s.pc.toNat : Int) + 2 * imm6.toInt) % 65536)
      ∧ (taken = false → GoesOn s t)
      ∧ SameRegsBut [] s t ∧ SameFlags s t ∧ SameBytes s t ∧ t.cfg = s.cfg

/-- The signed and the unsigned reading of BLT and BLE take the same branches exactly when bit 15 of
the two operands is equal. -/
def Obligations.ComparisonReadingsDifferOnlyInBitFifteen : Prop :=
  ∀ a b : Word,
    (lessThan true a b = lessThan false a b ↔ a.getLsbD 15 = b.getLsbD 15)
    ∧ (lessOrEqual true a b = lessOrEqual false a b ↔ a.getLsbD 15 = b.getLsbD 15)

/-- With RA = RB, BEQ and BLE always branch and BLT never does, under either value of CMP_SIGNED. -/
def Obligations.BranchesOnOneRegister : Prop :=
  ∀ (s : State) (ra : Reg) (imm6 : BitVec 6),
    (∃ t, exec (.beq ra ra imm6) s = .next t ∧ exec (.ble ra ra imm6) s = .next t
      ∧ (t.pc.toNat : Int) = ((s.pc.toNat : Int) + 2 * imm6.toInt) % 65536)
    ∧ ∃ t, exec (.blt ra ra imm6) s = .next t ∧ GoesOn s t

/-! ### Jumps (46_jump.md) -/

/-- R200: JAL with a link register other than R0 writes `pc + 2` to it and goes to its own address plus
twice the signed immediate, modulo 2^16. -/
def Obligations.JumpAndLinkResultAndFrame : Prop :=
  ∀ (s : State) (ra : Reg) (imm9 : BitVec 9), ra ≠ .r0 →
    ∃ t, exec (.jal ra imm9) s = .next t
      ∧ (t.readReg ra).toNat = (s.pc.toNat + 2) % 65536
      ∧ (t.pc.toNat : Int) = ((s.pc.toNat : Int) + 2 * imm9.toInt) % 65536
      ∧ SameRegsBut [ra] s t ∧ SameFlags s t ∧ SameBytes s t ∧ t.cfg = s.cfg

/-- R201: JLR with a link register other than R0 writes `pc + 2` to it and goes to the content of RB
before, also when RA = RB and when RB = R0. -/
def Obligations.JumpAndLinkToRegisterResultAndFrame : Prop :=
  ∀ (s : State) (ra rb : Reg), ra ≠ .r0 →
    ∃ t, exec (.jlr ra rb) s = .next t
      ∧ (t.readReg ra).toNat = (s.pc.toNat + 2) % 65536 ∧ t.pc = s.readReg rb
      ∧ SameRegsBut [ra] s t ∧ SameFlags s t ∧ SameBytes s t ∧ t.cfg = s.cfg

/-- R202: JRI goes to the content of RA plus twice the signed immediate, modulo 2^16, and writes
nothing else. -/
def Obligations.JumpToRegisterResultAndFrame : Prop :=
  ∀ (s : State) (ra : Reg) (imm9 : BitVec 9),
    ∃ t, exec (.jri ra imm9) s = .next t
      ∧ (t.pc.toNat : Int) = (((s.readReg ra).toNat : Int) + 2 * imm9.toInt) % 65536
      ∧ SameRegsBut [] s t ∧ SameFlags s t ∧ SameBytes s t ∧ t.cfg = s.cfg

/-- The calls and returns of R203: after a call by JAL or JLR, a return through the link register, by
JRI with immediate 0 or by JLR with a scratch register, goes on at the instruction after the call. -/
def Obligations.ReturnGoesToTheInstructionAfterTheCall : Prop :=
  ∀ (s t u : State) (link target scratch : Reg) (imm9 : BitVec 9) (i r : Instr),
    i ∈ [Instr.jal link imm9, Instr.jlr link target] → exec i s = .next t →
    u.readReg link = t.readReg link → scratch ≠ .r0 →
    r ∈ [Instr.jri link 0#9, Instr.jlr scratch link] →
    ∃ v, exec r u = .next v ∧ GoesOn s v

/-! ### Reset and the end of a run (70_reset_and_hazards.md) -/

/-- R32, R240: after reset, whatever the parameters and whatever the registers, flags and memory
hold, the PC is RESET_PC and the first instruction run is the word the host placed there. -/
def Obligations.ResetStartsAtResetPc : Prop :=
  ∀ (cfg : Config) (x1 x2 x3 x4 x5 x6 x7 : Word) (c z : Bool) (mem : Memory) (w : Word) (i : Instr)
    (s : State),
    s = State.resetOf cfg x1 x2 x3 x4 x5 x6 x7 c z mem →
    s.readReg .r0 = cfg.resetPc ∧ s.cfg = cfg ∧ s.mem = mem
    ∧ (cfg.resetPc.toNat % 2 = 0 → cfg.mapped cfg.resetPc = true → decode w = .ok i →
        step (s.placeWord cfg.resetPc w) = exec i (s.placeWord cfg.resetPc w))

/-- The values the model takes at reset where the spec gives none, or only a suggestion (DESIGN
CHOICE, assumption log 2 and 4): PC at the suggested 0x0000, R1 to R7 zero, both flags clear, memory
unwritten, parameters well formed, every even address mapped. -/
def Obligations.ResetValuesOfThisModel : Prop :=
  State.reset.pc = 0x0000#16
    ∧ (∀ q : Reg, q ≠ .r0 → State.reset.readReg q = 0x0000#16)
    ∧ State.reset.c = false ∧ State.reset.z = false ∧ State.reset.mem = []
    ∧ State.reset.cfg.wf = true
    ∧ ∀ a : Word, a.toNat % 2 = 0 → State.reset.cfg.mapped a = true

/-- The two self-jumps with which a program ends change no state at all; JAL with immediate 0 also
loops but writes its link. -/
def Obligations.SelfJumpsChangeNothing : Prop :=
  ∀ (s : State) (ra rb : Reg), rb ≠ .r0 →
    exec (.beq ra ra 0#6) s = .next s ∧ exec (.jri .r0 0#9) s = .next s
    ∧ ∃ t, exec (.jal rb 0#9) s = .next t ∧ t.pc = s.pc ∧ t.readReg rb = s.pc + 2#16

/-- R242: a run ends at the first step boundary at which the PC is HALT_PC, the instruction there not
executed; a run that arrives there ends, and with no HALT_PC no run ends. -/
def Obligations.RunEndsAtFirstArrivalAtHaltPc : Prop :=
  (∀ (n : Nat) (s t : State), runToHalt n s = .ended t →
    ∃ k : Nat, k ≤ n ∧ core.run k s = .next t ∧ t.cfg.haltPc = some t.pc
      ∧ ∀ (j : Nat) (u : State), j < k → core.run j s = .next u → u.cfg.haltPc ≠ some u.pc)
  ∧ (∀ (n k : Nat) (s t : State), k ≤ n → core.run k s = .next t → t.cfg.haltPc = some t.pc →
    ∃ u : State, runToHalt n s = .ended u)
  ∧ ∀ (n : Nat) (s t : State), s.cfg.haltPc = none → runToHalt n s ≠ .ended t
end

