-- ==== Sys2Proof/Laws/Decode.lean ====
section
/-! SUPPORT. The fields of an encoded word, register numbers and their fields, and the opcode rows. -/

namespace Sys2Proof

/-! ### Register numbers -/

theorem Reg.num_lt (r : Reg) : r.num < 8 := by cases r <;> decide

@[simp] theorem Reg.code_toNat (r : Reg) : r.code.toNat = r.num := by cases r <;> rfl

@[simp] theorem Reg.ofCode_code (r : Reg) : Reg.ofCode r.code = r := by cases r <;> rfl

@[simp] theorem Reg.code_ofCode (c : BitVec 3) : (Reg.ofCode c).code = c := by
  obtain ⟨⟨n, hn⟩⟩ := c
  interval_cases n <;> rfl

theorem Reg.ofCode_eq (c : BitVec 3) (r : Reg) (h : c.toNat = r.num) : Reg.ofCode c = r := by
  rw [← Reg.ofCode_code r]
  exact congrArg Reg.ofCode (BitVec.eq_of_toNat_eq (by rw [h, Reg.code_toNat]))

/-! ### The encodings as integers -/

theorem append_toNat {m n : Nat} (x : BitVec m) (y : BitVec n) :
    (x ++ y).toNat = x.toNat * 2 ^ n + y.toNat := by
  rw [BitVec.toNat_append, ← Nat.shiftLeft_add_eq_or_of_lt (BitVec.isLt _), Nat.shiftLeft_eq]

theorem encR_toNat (op : BitVec 4) (ra rb rc : Reg) (kcz : BitVec 3) :
    (encR op ra rb rc kcz).toNat =
      op.toNat * 4096 + ra.num * 512 + rb.num * 64 + rc.num * 8 + kcz.toNat := by
  simp only [encR, append_toNat, Reg.code_toNat]
  omega

theorem encI_toNat (op : BitVec 4) (ra rb : Reg) (imm6 : BitVec 6) :
    (encI op ra rb imm6).toNat = op.toNat * 4096 + ra.num * 512 + rb.num * 64 + imm6.toNat := by
  simp only [encI, append_toNat, Reg.code_toNat]
  omega

theorem encJ_toNat (op : BitVec 4) (ra : Reg) (imm9 : BitVec 9) :
    (encJ op ra imm9).toNat = op.toNat * 4096 + ra.num * 512 + imm9.toNat := by
  simp only [encJ, append_toNat, Reg.code_toNat]
  omega

/-! ### The fields of a word as integers -/

theorem extract_toNat (w : Word) (lo k : Nat) :
    (w.extractLsb' lo k).toNat = w.toNat / 2 ^ lo % 2 ^ k := by
  rw [BitVec.extractLsb'_toNat, Nat.shiftRight_eq_div_pow]

theorem opcodeField_toNat (w : Word) : (opcodeField w).toNat = w.toNat / 4096 % 16 :=
  extract_toNat w 12 4

theorem kczField_toNat (w : Word) : (kczField w).toNat = w.toNat / 1 % 8 := extract_toNat w 0 3

theorem imm6Field_toNat (w : Word) : (imm6Field w).toNat = w.toNat / 1 % 64 := extract_toNat w 0 6

theorem imm9Field_toNat (w : Word) : (imm9Field w).toNat = w.toNat / 1 % 512 := extract_toNat w 0 9

theorem mask8Field_toNat (w : Word) : (mask8Field w).toNat = w.toNat / 1 % 256 :=
  extract_toNat w 0 8

theorem multipleBit_eq (w : Word) : multipleBit w = decide (w.toNat / 256 % 2 = 1) := by
  simp [multipleBit, BitVec.getLsbD, Nat.testBit_eq_decide_div_mod_eq]

theorem field_num (w : Word) (lo : Nat) :
    (Reg.ofCode (w.extractLsb' lo 3)).num = w.toNat / 2 ^ lo % 8 := by
  rw [← Reg.code_toNat, Reg.code_ofCode, extract_toNat]; rfl

theorem raField_num (w : Word) : (raField w).num = w.toNat / 512 % 8 := field_num w 9

theorem rbField_num (w : Word) : (rbField w).num = w.toNat / 64 % 8 := field_num w 6

theorem rcField_num (w : Word) : (rcField w).num = w.toNat / 8 % 8 := field_num w 3

theorem Reg.eq_of_num {p q : Reg} (h : p.num = q.num) : p = q := by
  cases p <;> cases q <;> first | rfl | exact absurd h (by decide)

/-! ### The fields of an encoded word -/

section

variable (op : BitVec 4) (ra rb rc : Reg) (kcz : BitVec 3) (imm6 : BitVec 6) (imm9 : BitVec 9)

@[simp] theorem opcodeField_encR : opcodeField (encR op ra rb rc kcz) = op := by
  apply BitVec.eq_of_toNat_eq
  have := ra.num_lt; have := rb.num_lt; have := rc.num_lt; have := op.isLt; have := kcz.isLt
  rw [opcodeField_toNat, encR_toNat]; omega

@[simp] theorem raField_encR : raField (encR op ra rb rc kcz) = ra := by
  apply Reg.eq_of_num
  have := ra.num_lt; have := rb.num_lt; have := rc.num_lt; have := kcz.isLt
  rw [raField_num, encR_toNat]; omega

@[simp] theorem rbField_encR : rbField (encR op ra rb rc kcz) = rb := by
  apply Reg.eq_of_num
  have := rb.num_lt; have := rc.num_lt; have := kcz.isLt
  rw [rbField_num, encR_toNat]; omega

@[simp] theorem rcField_encR : rcField (encR op ra rb rc kcz) = rc := by
  apply Reg.eq_of_num
  have := rc.num_lt; have := kcz.isLt
  rw [rcField_num, encR_toNat]; omega

@[simp] theorem kczField_encR : kczField (encR op ra rb rc kcz) = kcz := by
  apply BitVec.eq_of_toNat_eq
  have := kcz.isLt
  rw [kczField_toNat, encR_toNat]; omega

@[simp] theorem opcodeField_encI : opcodeField (encI op ra rb imm6) = op := by
  apply BitVec.eq_of_toNat_eq
  have := ra.num_lt; have := rb.num_lt; have := op.isLt; have := imm6.isLt
  rw [opcodeField_toNat, encI_toNat]; omega

@[simp] theorem raField_encI : raField (encI op ra rb imm6) = ra := by
  apply Reg.eq_of_num
  have := ra.num_lt; have := rb.num_lt; have := imm6.isLt
  rw [raField_num, encI_toNat]; omega

@[simp] theorem rbField_encI : rbField (encI op ra rb imm6) = rb := by
  apply Reg.eq_of_num
  have := rb.num_lt; have := imm6.isLt
  rw [rbField_num, encI_toNat]; omega

@[simp] theorem imm6Field_encI : imm6Field (encI op ra rb imm6) = imm6 := by
  apply BitVec.eq_of_toNat_eq
  have := imm6.isLt
  rw [imm6Field_toNat, encI_toNat]; omega

@[simp] theorem opcodeField_encJ : opcodeField (encJ op ra imm9) = op := by
  apply BitVec.eq_of_toNat_eq
  have := ra.num_lt; have := op.isLt; have := imm9.isLt
  rw [opcodeField_toNat, encJ_toNat]; omega

@[simp] theorem raField_encJ : raField (encJ op ra imm9) = ra := by
  apply Reg.eq_of_num
  have := ra.num_lt; have := imm9.isLt
  rw [raField_num, encJ_toNat]; omega

@[simp] theorem imm9Field_encJ : imm9Field (encJ op ra imm9) = imm9 := by
  apply BitVec.eq_of_toNat_eq
  have := imm9.isLt
  rw [imm9Field_toNat, encJ_toNat]; omega

@[simp] theorem mask8Field_encJ (mask8 : BitVec 8) :
    mask8Field (encJ op ra (0#1 ++ mask8)) = mask8 := by
  apply BitVec.eq_of_toNat_eq
  have := mask8.isLt
  rw [mask8Field_toNat, encJ_toNat, append_toNat]; omega

@[simp] theorem multipleBit_encJ (mask8 : BitVec 8) :
    multipleBit (encJ op ra (0#1 ++ mask8)) = false := by
  have := mask8.isLt
  rw [multipleBit_eq, encJ_toNat, append_toNat]
  simp only [decide_eq_false_iff_not, BitVec.toNat_ofNat]; omega

end

/-! ### A word is its fields -/

theorem encR_fields (w : Word) :
    encR (opcodeField w) (raField w) (rbField w) (rcField w) (kczField w) = w := by
  apply BitVec.eq_of_toNat_eq
  have := w.isLt
  rw [encR_toNat, opcodeField_toNat, raField_num, rbField_num, rcField_num, kczField_toNat]; omega

theorem encI_fields (w : Word) : encI (opcodeField w) (raField w) (rbField w) (imm6Field w) = w := by
  apply BitVec.eq_of_toNat_eq
  have := w.isLt
  rw [encI_toNat, opcodeField_toNat, raField_num, rbField_num, imm6Field_toNat]; omega

theorem encJ_fields (w : Word) : encJ (opcodeField w) (raField w) (imm9Field w) = w := by
  apply BitVec.eq_of_toNat_eq
  have := w.isLt
  rw [encJ_toNat, opcodeField_toNat, raField_num, imm9Field_toNat]; omega

theorem encM_fields (w : Word) (h : multipleBit w = false) :
    encJ (opcodeField w) (raField w) (0#1 ++ mask8Field w) = w := by
  apply BitVec.eq_of_toNat_eq
  have := w.isLt
  rw [multipleBit_eq, decide_eq_false_iff_not] at h
  rw [encJ_toNat, append_toNat, opcodeField_toNat, raField_num, mask8Field_toNat,
    BitVec.toNat_ofNat]
  omega

/-! ### Words under the masks of R66 and R72, as integers -/

theorem and_eq_iff_bits (w m v : Word) :
    w &&& m = v ↔ ∀ i, i < 16 → (w.getLsbD i && m.getLsbD i) = v.getLsbD i := by
  constructor
  · rintro rfl i _
    simp
  · intro h
    apply BitVec.eq_of_getLsbD_eq
    intro i hi
    simpa using h i hi

theorem forall_lt_sixteen (P : Nat → Prop) :
    (∀ i, i < 16 → P i) ↔ P 0 ∧ P 1 ∧ P 2 ∧ P 3 ∧ P 4 ∧ P 5 ∧ P 6 ∧ P 7 ∧ P 8 ∧ P 9 ∧ P 10
      ∧ P 11 ∧ P 12 ∧ P 13 ∧ P 14 ∧ P 15 := by
  constructor
  · intro h
    refine ⟨?_, ?_, ?_, ?_, ?_, ?_, ?_, ?_, ?_, ?_, ?_, ?_, ?_, ?_, ?_, ?_⟩ <;>
      exact h _ (by omega)
  · rintro h i hi
    interval_cases i <;> tauto

theorem and_f000_toNat (w : Word) : (w &&& 0xF000#16).toNat = w.toNat / 4096 * 4096 := by
  have hw := w.isLt
  have h : w &&& 0xF000#16 = BitVec.ofNat 16 (w.toNat / 4096 * 4096) := by
    rw [and_eq_iff_bits, forall_lt_sixteen]
    simp only [BitVec.getLsbD, BitVec.toNat_ofNat, Nat.testBit_eq_decide_div_mod_eq]
    simp
    omega
  rw [h, BitVec.toNat_ofNat]
  omega

theorem and_f007_toNat (w : Word) : (w &&& 0xF007#16).toNat = w.toNat / 4096 * 4096 + w.toNat % 8 := by
  have hw := w.isLt
  have h : w &&& 0xF007#16 = BitVec.ofNat 16 (w.toNat / 4096 * 4096 + w.toNat % 8) := by
    rw [and_eq_iff_bits, forall_lt_sixteen]
    simp only [BitVec.getLsbD, BitVec.toNat_ofNat, Nat.testBit_eq_decide_div_mod_eq]
    simp
    omega
  rw [h, BitVec.toNat_ofNat]
  omega

theorem and_f003_toNat (w : Word) : (w &&& 0xF003#16).toNat = w.toNat / 4096 * 4096 + w.toNat % 4 := by
  have hw := w.isLt
  have h : w &&& 0xF003#16 = BitVec.ofNat 16 (w.toNat / 4096 * 4096 + w.toNat % 4) := by
    rw [and_eq_iff_bits, forall_lt_sixteen]
    simp only [BitVec.getLsbD, BitVec.toNat_ofNat, Nat.testBit_eq_decide_div_mod_eq]
    simp
    omega
  rw [h, BitVec.toNat_ofNat]
  omega

theorem and_f03f_toNat (w : Word) : (w &&& 0xF03F#16).toNat = w.toNat / 4096 * 4096 + w.toNat % 64 := by
  have hw := w.isLt
  have h : w &&& 0xF03F#16 = BitVec.ofNat 16 (w.toNat / 4096 * 4096 + w.toNat % 64) := by
    rw [and_eq_iff_bits, forall_lt_sixteen]
    simp only [BitVec.getLsbD, BitVec.toNat_ofNat, Nat.testBit_eq_decide_div_mod_eq]
    simp
    omega
  rw [h, BitVec.toNat_ofNat]
  omega

theorem and_f100_toNat (w : Word) : (w &&& 0xF100#16).toNat = w.toNat / 4096 * 4096 + w.toNat / 256 % 2 * 256 := by
  have hw := w.isLt
  have h : w &&& 0xF100#16 = BitVec.ofNat 16 (w.toNat / 4096 * 4096 + w.toNat / 256 % 2 * 256) := by
    rw [and_eq_iff_bits, forall_lt_sixteen]
    simp only [BitVec.getLsbD, BitVec.toNat_ofNat, Nat.testBit_eq_decide_div_mod_eq]
    simp
    omega
  rw [h, BitVec.toNat_ofNat]
  omega

theorem and_e100_toNat (w : Word) : (w &&& 0xE100#16).toNat = w.toNat / 8192 * 8192 + w.toNat / 256 % 2 * 256 := by
  have hw := w.isLt
  have h : w &&& 0xE100#16 = BitVec.ofNat 16 (w.toNat / 8192 * 8192 + w.toNat / 256 % 2 * 256) := by
    rw [and_eq_iff_bits, forall_lt_sixteen]
    simp only [BitVec.getLsbD, BitVec.toNat_ofNat, Nat.testBit_eq_decide_div_mod_eq]
    simp
    omega
  rw [h, BitVec.toNat_ofNat]
  omega

theorem and_003f_toNat (w : Word) : (w &&& 0x003F#16).toNat = w.toNat % 64 := by
  have hw := w.isLt
  have h : w &&& 0x003F#16 = BitVec.ofNat 16 (w.toNat % 64) := by
    rw [and_eq_iff_bits, forall_lt_sixteen]
    simp only [BitVec.getLsbD, BitVec.toNat_ofNat, Nat.testBit_eq_decide_div_mod_eq]
    simp
    omega
  rw [h, BitVec.toNat_ofNat]
  omega

/-! ### The opcode rows (R66) -/

/-- All 26 rows, one instruction of each kind. -/
def opcodeRows : List OpcodeRow :=
  [Instr.row (.ada .r0 .r0 .r0), Instr.row (.adc .r0 .r0 .r0), Instr.row (.adz .r0 .r0 .r0),
    Instr.row (.awc .r0 .r0 .r0), Instr.row (.aca .r0 .r0 .r0), Instr.row (.acc .r0 .r0 .r0),
    Instr.row (.acz .r0 .r0 .r0), Instr.row (.acw .r0 .r0 .r0), Instr.row (.adi .r0 .r0 0),
    Instr.row (.ndu .r0 .r0 .r0), Instr.row (.ndc .r0 .r0 .r0), Instr.row (.ndz .r0 .r0 .r0),
    Instr.row (.ncu .r0 .r0 .r0), Instr.row (.ncc .r0 .r0 .r0), Instr.row (.ncz .r0 .r0 .r0),
    Instr.row (.lli .r0 0), Instr.row (.lw .r0 .r0 0), Instr.row (.sw .r0 .r0 0),
    Instr.row (.lm .r0 0), Instr.row (.sm .r0 0), Instr.row (.beq .r0 .r0 0),
    Instr.row (.blt .r0 .r0 0), Instr.row (.ble .r0 .r0 0), Instr.row (.jal .r0 0),
    Instr.row (.jlr .r0 .r0), Instr.row (.jri .r0 0)]

/-- Two rows differ in a bit that both fix, so no word meets both (R66). -/
theorem opcodeRows_disjoint :
    opcodeRows.Pairwise fun p q => (p.value ^^^ q.value) &&& p.mask &&& q.mask ≠ 0#16 := by
  decide

end Sys2Proof
end

