-- ==== Sys2Proof/Laws/Memory.lean ====
section
/-! SUPPORT. What a byte write and a word write do to memory: reads after writes, the canonical form,
whole words, and the two bytes of a word. -/

namespace Sys2Proof.Machine

/-! ### Bytes -/

@[simp] theorem Memory.read?_nil (a : Nat) : Memory.read? [] a = none := rfl

/-- A byte reads back the last write to it, and a write leaves every other byte alone (R42). -/
theorem Memory.read?_write (m : Memory) (a b : Nat) (v : Byte) :
    (m.write a v).read? b = if b = a then some v else m.read? b := by
  induction m with
  | nil => simp [Memory.write, Memory.read?]
  | cons x rest ih =>
    obtain ⟨k, w⟩ := x
    simp only [Memory.write]
    split
    · simp [Memory.read?]
    · split
      · rename_i h
        subst h
        simp only [Memory.read?]
        split <;> rfl
      · simp only [Memory.read?, ih]
        split <;> split <;> simp_all

/-- The addresses listed after a write are those listed before and the one written. -/
theorem Memory.mem_write {m : Memory} {a : Nat} {v : Byte} {x : Host.Cell} (h : x ∈ m.write a v) :
    x.1 = a ∨ x ∈ m := by
  induction m with
  | nil => simp only [Memory.write, List.mem_singleton] at h; exact .inl (by rw [h])
  | cons y rest ih =>
    obtain ⟨k, w⟩ := y
    simp only [Memory.write] at h
    split at h
    · rcases List.mem_cons.1 h with h | h
      · exact .inl (by rw [h])
      · exact .inr h
    · split at h
      · rcases List.mem_cons.1 h with h | h
        · exact .inl (by rw [h])
        · exact .inr (List.mem_cons_of_mem _ h)
      · rcases List.mem_cons.1 h with h | h
        · exact .inr (by rw [h]; exact List.mem_cons_self)
        · rcases ih h with h | h
          · exact .inl h
          · exact .inr (List.mem_cons_of_mem _ h)

/-- A write inside the address space keeps the canonical form. -/
theorem Memory.wf_write {m : Memory} {a : Nat} {v : Byte} (hm : m.wf) (ha : a < addressSpace) :
    (m.write a v).wf := by
  refine ⟨?_, fun x hx => ?_⟩
  · obtain ⟨hp, -⟩ := hm
    induction m with
    | nil => simp [Memory.write]
    | cons y rest ih =>
      obtain ⟨k, w⟩ := y
      rw [List.pairwise_cons] at hp
      simp only [Memory.write]
      split
      · rename_i hlt
        refine List.pairwise_cons.2 ⟨fun x hx => ?_, List.pairwise_cons.2 hp⟩
        rcases List.mem_cons.1 hx with rfl | hx
        · exact hlt
        · exact Nat.lt_trans hlt (hp.1 x hx)
      · split
        · rename_i h
          subst h
          exact List.pairwise_cons.2 hp
        · refine List.pairwise_cons.2 ⟨fun x hx => ?_, ih hp.2⟩
          rcases Memory.mem_write hx with h | hx
          · simp only [h]; omega
          · exact hp.1 x hx
  · rcases Memory.mem_write hx with h | h
    · rw [h]; exact ha
    · exact hm.2 x h

/-- A byte is written exactly when its address is listed. -/
theorem Memory.isSome_read?_of_mem {m : Memory} {x : Host.Cell} (h : x ∈ m) :
    (m.read? x.1).isSome = true := by
  induction m with
  | nil => cases h
  | cons y rest ih =>
    simp only [Memory.read?]
    split
    · rfl
    · rcases List.mem_cons.1 h with rfl | h
      · contradiction
      · exact ih h

theorem Memory.mem_of_read? {m : Memory} {a : Nat} {v : Byte} (h : m.read? a = some v) :
    (a, v) ∈ m := by
  induction m with
  | nil => cases h
  | cons y rest ih =>
    obtain ⟨k, w⟩ := y
    simp only [Memory.read?] at h
    split at h
    · rename_i hk
      cases h
      rw [hk]
      exact List.mem_cons_self
    · exact List.mem_cons_of_mem _ (ih h)

/-! ### Words -/

/-- Every byte after a word write. -/
theorem Memory.read?_writeWord (o : ByteOrder) (m : Memory) (a v : Word) (b : Nat) :
    (Memory.writeWord o m a v).read? b =
      if b = a.toNat then some (splitWord o v).1
      else if b = a.toNat + 1 then some (splitWord o v).2
      else m.read? b := by
  simp only [Memory.writeWord, Memory.read?_write]
  split <;> split <;> first | rfl | omega

/-- A word write at an even address keeps the canonical form. -/
theorem Memory.wf_writeWord {m : Memory} (o : ByteOrder) {a : Word} (v : Word) (hm : m.wf)
    (ha : a.toNat % 2 = 0) : (Memory.writeWord o m a v).wf := by
  have : a.toNat < 65536 := a.isLt
  exact Memory.wf_write (Memory.wf_write hm (by simp only [addressSpace]; omega))
    (by simp only [addressSpace]; omega)

theorem Memory.whole_of_read? {m : Memory}
    (h : ∀ a, (m.read? a).isSome = true → (m.read? (partnerByte a)).isSome = true) : m.whole :=
  fun _ hx => h _ (Memory.isSome_read?_of_mem hx)

theorem Memory.whole.read? {m : Memory} (h : m.whole) {a : Nat} (ha : (m.read? a).isSome = true) :
    (m.read? (partnerByte a)).isSome = true := by
  obtain ⟨v, hv⟩ := Option.isSome_iff_exists.1 ha
  exact h _ (Memory.mem_of_read? hv)

/-- A word write at an even address keeps words whole. -/
theorem Memory.whole_writeWord {m : Memory} (o : ByteOrder) {a : Word} (v : Word) (hm : m.whole)
    (ha : a.toNat % 2 = 0) : (Memory.writeWord o m a v).whole := by
  refine Memory.whole_of_read? fun b hb => ?_
  rw [Memory.read?_writeWord] at hb ⊢
  by_cases h0 : b = a.toNat
  · simp [partnerByte, h0, ha]
  · by_cases h1 : b = a.toNat + 1
    · have : ¬ (a.toNat + 1) % 2 = 0 := by omega
      simp [partnerByte, h1, this]
    · rw [if_neg h0, if_neg h1] at hb
      have hp := hm.read? hb
      by_cases hp0 : partnerByte b = a.toNat
      · rw [if_pos hp0]; rfl
      · by_cases hp1 : partnerByte b = a.toNat + 1
        · rw [if_neg hp0, if_pos hp1]; rfl
        · rwa [if_neg hp0, if_neg hp1]

/-! ### The two bytes of a word (R43) -/

@[simp] theorem splitWord_joinWord (o : ByteOrder) (lower upper : Byte) :
    splitWord o (joinWord o lower upper) = (lower, upper) := by
  cases o <;> refine Prod.ext ?_ ?_ <;> apply BitVec.eq_of_getLsbD_eq <;> intro k hk <;>
    simp only [splitWord, joinWord, BitVec.getLsbD_extractLsb', BitVec.getLsbD_append, hk,
      decide_true, Bool.true_and] <;>
    simp [hk]

@[simp] theorem joinWord_splitWord (o : ByteOrder) (w : Word) :
    joinWord o (splitWord o w).1 (splitWord o w).2 = w := by
  cases o <;>
  · simp only [joinWord, splitWord]
    apply BitVec.eq_of_toNat_eq
    rw [BitVec.toNat_append, ← Nat.shiftLeft_add_eq_or_of_lt (BitVec.isLt _)]
    have := w.isLt
    simp only [BitVec.extractLsb'_toNat, Nat.shiftLeft_eq, Nat.shiftRight_eq_div_pow]
    omega

/-- The word after a word write, at its own address. -/
theorem State.wordAt_of_writeWord {t : State} {m : Memory} {a v : Word}
    (h : t.mem = Memory.writeWord t.cfg.byteOrder m a v) : t.wordAt a = v := by
  simp [State.wordAt, State.byteAt, h, Memory.read?_writeWord]

/-- The word at an even address that nothing has written is the same in either byte order. -/
theorem State.wordAt_of_unwritten {s : State} {a : Word} (ha : a.toNat % 2 = 0)
    (h0 : s.mem.read? a.toNat = none) (h1 : s.mem.read? (a.toNat + 1) = none) :
    s.wordAt a = Config.initialWord a.toNat := by
  have : ¬ (a.toNat + 1) % 2 = 0 := by omega
  simp [State.wordAt, State.byteAt, h0, h1, initialByte, ha, this]

/-- Equal bytes make equal words. -/
theorem State.wordAt_congr {s t : State} {a : Word} (ho : t.cfg.byteOrder = s.cfg.byteOrder)
    (h0 : t.mem.read? a.toNat = s.mem.read? a.toNat)
    (h1 : t.mem.read? (a.toNat + 1) = s.mem.read? (a.toNat + 1)) : t.wordAt a = s.wordAt a := by
  simp only [State.wordAt, State.byteAt, ho, h0, h1]

end Sys2Proof.Machine
end

