-- ==== Sys2Proof/Laws/State.lean ====
section
/-! SUPPORT. One lemma per field per update of the state, and how registers are read back after each
update: cite these, never unfold an update. -/

namespace Sys2Proof.Machine

/-! ### `setPc` -/

@[simp] theorem State.setPc_pc (s : State) (v : Word) : (s.setPc v).pc = v := rfl
@[simp] theorem State.setPc_r1 (s : State) (v : Word) : (s.setPc v).r1 = s.r1 := rfl
@[simp] theorem State.setPc_r2 (s : State) (v : Word) : (s.setPc v).r2 = s.r2 := rfl
@[simp] theorem State.setPc_r3 (s : State) (v : Word) : (s.setPc v).r3 = s.r3 := rfl
@[simp] theorem State.setPc_r4 (s : State) (v : Word) : (s.setPc v).r4 = s.r4 := rfl
@[simp] theorem State.setPc_r5 (s : State) (v : Word) : (s.setPc v).r5 = s.r5 := rfl
@[simp] theorem State.setPc_r6 (s : State) (v : Word) : (s.setPc v).r6 = s.r6 := rfl
@[simp] theorem State.setPc_r7 (s : State) (v : Word) : (s.setPc v).r7 = s.r7 := rfl
@[simp] theorem State.setPc_c (s : State) (v : Word) : (s.setPc v).c = s.c := rfl
@[simp] theorem State.setPc_z (s : State) (v : Word) : (s.setPc v).z = s.z := rfl
@[simp] theorem State.setPc_mem (s : State) (v : Word) : (s.setPc v).mem = s.mem := rfl
@[simp] theorem State.setPc_cfg (s : State) (v : Word) : (s.setPc v).cfg = s.cfg := rfl

/-! ### `advance` -/

@[simp] theorem State.advance_pc (s : State) : (s.advance).pc = s.nextPc := rfl
@[simp] theorem State.advance_r1 (s : State) : (s.advance).r1 = s.r1 := rfl
@[simp] theorem State.advance_r2 (s : State) : (s.advance).r2 = s.r2 := rfl
@[simp] theorem State.advance_r3 (s : State) : (s.advance).r3 = s.r3 := rfl
@[simp] theorem State.advance_r4 (s : State) : (s.advance).r4 = s.r4 := rfl
@[simp] theorem State.advance_r5 (s : State) : (s.advance).r5 = s.r5 := rfl
@[simp] theorem State.advance_r6 (s : State) : (s.advance).r6 = s.r6 := rfl
@[simp] theorem State.advance_r7 (s : State) : (s.advance).r7 = s.r7 := rfl
@[simp] theorem State.advance_c (s : State) : (s.advance).c = s.c := rfl
@[simp] theorem State.advance_z (s : State) : (s.advance).z = s.z := rfl
@[simp] theorem State.advance_mem (s : State) : (s.advance).mem = s.mem := rfl
@[simp] theorem State.advance_cfg (s : State) : (s.advance).cfg = s.cfg := rfl

/-! ### `setFlags` -/

@[simp] theorem State.setFlags_pc (s : State) (b : Bool) (d : Bool) : (s.setFlags b d).pc = s.pc := rfl
@[simp] theorem State.setFlags_r1 (s : State) (b : Bool) (d : Bool) : (s.setFlags b d).r1 = s.r1 := rfl
@[simp] theorem State.setFlags_r2 (s : State) (b : Bool) (d : Bool) : (s.setFlags b d).r2 = s.r2 := rfl
@[simp] theorem State.setFlags_r3 (s : State) (b : Bool) (d : Bool) : (s.setFlags b d).r3 = s.r3 := rfl
@[simp] theorem State.setFlags_r4 (s : State) (b : Bool) (d : Bool) : (s.setFlags b d).r4 = s.r4 := rfl
@[simp] theorem State.setFlags_r5 (s : State) (b : Bool) (d : Bool) : (s.setFlags b d).r5 = s.r5 := rfl
@[simp] theorem State.setFlags_r6 (s : State) (b : Bool) (d : Bool) : (s.setFlags b d).r6 = s.r6 := rfl
@[simp] theorem State.setFlags_r7 (s : State) (b : Bool) (d : Bool) : (s.setFlags b d).r7 = s.r7 := rfl
@[simp] theorem State.setFlags_c (s : State) (b : Bool) (d : Bool) : (s.setFlags b d).c = b := rfl
@[simp] theorem State.setFlags_z (s : State) (b : Bool) (d : Bool) : (s.setFlags b d).z = d := rfl
@[simp] theorem State.setFlags_mem (s : State) (b : Bool) (d : Bool) : (s.setFlags b d).mem = s.mem := rfl
@[simp] theorem State.setFlags_cfg (s : State) (b : Bool) (d : Bool) : (s.setFlags b d).cfg = s.cfg := rfl

/-! ### `setZ` -/

@[simp] theorem State.setZ_pc (s : State) (d : Bool) : (s.setZ d).pc = s.pc := rfl
@[simp] theorem State.setZ_r1 (s : State) (d : Bool) : (s.setZ d).r1 = s.r1 := rfl
@[simp] theorem State.setZ_r2 (s : State) (d : Bool) : (s.setZ d).r2 = s.r2 := rfl
@[simp] theorem State.setZ_r3 (s : State) (d : Bool) : (s.setZ d).r3 = s.r3 := rfl
@[simp] theorem State.setZ_r4 (s : State) (d : Bool) : (s.setZ d).r4 = s.r4 := rfl
@[simp] theorem State.setZ_r5 (s : State) (d : Bool) : (s.setZ d).r5 = s.r5 := rfl
@[simp] theorem State.setZ_r6 (s : State) (d : Bool) : (s.setZ d).r6 = s.r6 := rfl
@[simp] theorem State.setZ_r7 (s : State) (d : Bool) : (s.setZ d).r7 = s.r7 := rfl
@[simp] theorem State.setZ_c (s : State) (d : Bool) : (s.setZ d).c = s.c := rfl
@[simp] theorem State.setZ_z (s : State) (d : Bool) : (s.setZ d).z = d := rfl
@[simp] theorem State.setZ_mem (s : State) (d : Bool) : (s.setZ d).mem = s.mem := rfl
@[simp] theorem State.setZ_cfg (s : State) (d : Bool) : (s.setZ d).cfg = s.cfg := rfl

/-! ### `setMem` -/

@[simp] theorem State.setMem_pc (s : State) (m : Memory) : (s.setMem m).pc = s.pc := rfl
@[simp] theorem State.setMem_r1 (s : State) (m : Memory) : (s.setMem m).r1 = s.r1 := rfl
@[simp] theorem State.setMem_r2 (s : State) (m : Memory) : (s.setMem m).r2 = s.r2 := rfl
@[simp] theorem State.setMem_r3 (s : State) (m : Memory) : (s.setMem m).r3 = s.r3 := rfl
@[simp] theorem State.setMem_r4 (s : State) (m : Memory) : (s.setMem m).r4 = s.r4 := rfl
@[simp] theorem State.setMem_r5 (s : State) (m : Memory) : (s.setMem m).r5 = s.r5 := rfl
@[simp] theorem State.setMem_r6 (s : State) (m : Memory) : (s.setMem m).r6 = s.r6 := rfl
@[simp] theorem State.setMem_r7 (s : State) (m : Memory) : (s.setMem m).r7 = s.r7 := rfl
@[simp] theorem State.setMem_c (s : State) (m : Memory) : (s.setMem m).c = s.c := rfl
@[simp] theorem State.setMem_z (s : State) (m : Memory) : (s.setMem m).z = s.z := rfl
@[simp] theorem State.setMem_mem (s : State) (m : Memory) : (s.setMem m).mem = m := rfl
@[simp] theorem State.setMem_cfg (s : State) (m : Memory) : (s.setMem m).cfg = s.cfg := rfl

/-! ### `writeReg`: every field but the register's own -/

@[simp] theorem State.writeReg_c (s : State) (r : Reg) (v : Word) : (s.writeReg r v).c = s.c := by
  cases r <;> rfl

@[simp] theorem State.writeReg_z (s : State) (r : Reg) (v : Word) : (s.writeReg r v).z = s.z := by
  cases r <;> rfl

@[simp] theorem State.writeReg_mem (s : State) (r : Reg) (v : Word) :
    (s.writeReg r v).mem = s.mem := by
  cases r <;> rfl

@[simp] theorem State.writeReg_cfg (s : State) (r : Reg) (v : Word) :
    (s.writeReg r v).cfg = s.cfg := by
  cases r <;> rfl

@[simp] theorem State.writeReg_r0_pc (s : State) (v : Word) : (s.writeReg .r0 v).pc = v := rfl

theorem State.writeReg_pc_of_ne (s : State) (r : Reg) (v : Word) (h : r ≠ .r0) :
    (s.writeReg r v).pc = s.pc := by
  cases r <;> first | rfl | exact absurd rfl h

/-! ### Reading registers back -/

@[simp] theorem State.readReg_r0 (s : State) : s.readReg .r0 = s.pc := rfl

@[simp] theorem State.readReg_writeReg_same (s : State) (r : Reg) (v : Word) :
    (s.writeReg r v).readReg r = v := by
  cases r <;> rfl

theorem State.readReg_writeReg_ne (s : State) (r q : Reg) (v : Word) (h : q ≠ r) :
    (s.writeReg r v).readReg q = s.readReg q := by
  cases r <;> cases q <;> first | rfl | exact absurd rfl h

@[simp] theorem State.readReg_setFlags (s : State) (b d : Bool) (q : Reg) :
    (s.setFlags b d).readReg q = s.readReg q := by
  cases q <;> rfl

@[simp] theorem State.readReg_setZ (s : State) (d : Bool) (q : Reg) :
    (s.setZ d).readReg q = s.readReg q := by
  cases q <;> rfl

theorem State.readReg_setPc_ne (s : State) (v : Word) (q : Reg) (h : q ≠ .r0) :
    (s.setPc v).readReg q = s.readReg q := by
  cases q <;> first | rfl | exact absurd rfl h

theorem State.readReg_advance_ne (s : State) (q : Reg) (h : q ≠ .r0) :
    s.advance.readReg q = s.readReg q :=
  s.readReg_setPc_ne _ q h

@[simp] theorem State.readReg_setMem (s : State) (m : Memory) (q : Reg) :
    (s.setMem m).readReg q = s.readReg q := by
  cases q <;> rfl

/-! ### Updates of different parts commute -/

theorem State.writeReg_setMem (s : State) (m : Memory) (r : Reg) (v : Word) :
    (s.setMem m).writeReg r v = (s.writeReg r v).setMem m := by
  cases r <;> rfl

theorem State.writeReg_setFlags (s : State) (b d : Bool) (r : Reg) (v : Word) :
    (s.setFlags b d).writeReg r v = (s.writeReg r v).setFlags b d := by
  cases r <;> rfl

theorem State.writeReg_setZ (s : State) (d : Bool) (r : Reg) (v : Word) :
    (s.setZ d).writeReg r v = (s.writeReg r v).setZ d := by
  cases r <;> rfl

theorem State.advance_setMem (s : State) (m : Memory) : (s.setMem m).advance = s.advance.setMem m :=
  rfl

theorem State.advance_setFlags (s : State) (b d : Bool) :
    (s.setFlags b d).advance = s.advance.setFlags b d := rfl

theorem State.advance_setZ (s : State) (d : Bool) : (s.setZ d).advance = s.advance.setZ d := rfl

/-- The next PC as an integer: `pc + 2` modulo 2^16 (R24). -/
theorem State.nextPc_toNat (s : State) : s.nextPc.toNat = (s.pc.toNat + 2) % 65536 := by
  simp [State.nextPc, BitVec.toNat_add]

end Sys2Proof.Machine
end

