-- ==== Sys2Proof/Laws/Ops.lean ====
section
/-! SUPPORT. What each shared operation can do, said once: data accesses, the transfers of LM and SM,
the adder and the operand forms. The proofs about instructions cite these and unfold nothing. -/

namespace Sys2Proof.Machine

open Sys2Proof.Safety

/-! ### Parity -/

theorem getLsbD_zero_eq (a : Word) : a.getLsbD 0 = decide (a.toNat % 2 = 1) := by
  simp [BitVec.getLsbD, Nat.testBit_eq_decide_div_mod_eq]

/-! ### Data accesses -/

/-- The three answers of the access check (R44, R47, R223). -/
theorem State.accessRefusal_eq (s : State) (a : Word) :
    s.accessRefusal a =
      if a.toNat % 2 = 1 then some .misalignedAccess
      else if s.cfg.mapped a = true then none
      else some .unmappedAccess := by
  simp only [State.accessRefusal, getLsbD_zero_eq, decide_eq_true_eq]

theorem State.accessRefusal_none {s : State} {a : Word} (h : Accessible s a) :
    s.accessRefusal a = none := by
  rw [State.accessRefusal_eq, if_neg (by have := h.1; omega), if_pos h.2]

theorem State.accessible_of_none {s : State} {a : Word} (h : s.accessRefusal a = none) :
    Accessible s a := by
  rw [State.accessRefusal_eq] at h
  split at h
  · cases h
  · split at h
    · rename_i h1 h2
      exact ⟨by omega, h2⟩
    · cases h

theorem State.accessRefusal_congr {s t : State} (h : t.cfg = s.cfg) (a : Word) :
    t.accessRefusal a = s.accessRefusal a := by
  simp only [State.accessRefusal, h]

/-- A read answers exactly at an accessible address, with the word there. -/
theorem State.memRead_ok_iff {s : State} {a v : Word} :
    s.memRead a = .ok v ↔ Accessible s a ∧ v = s.wordAt a := by
  simp only [State.memRead]
  constructor
  · intro h
    split at h
    · cases h
    · rename_i hn
      cases h
      exact ⟨State.accessible_of_none hn, rfl⟩
  · rintro ⟨h, rfl⟩
    rw [State.accessRefusal_none h]

/-- A read that is refused gives the access check's reason. -/
theorem State.memRead_error_iff {s : State} {a : Word} {r : Refusal} :
    s.memRead a = .error r ↔ s.accessRefusal a = some r := by
  simp only [State.memRead]
  split <;> simp_all

/-- A write answers exactly at an accessible address, and changes memory's word there alone. -/
theorem State.memWrite_ok_iff {s t : State} {a v : Word} :
    s.memWrite a v = .ok t ↔
      Accessible s a ∧ t = s.setMem (Memory.writeWord s.cfg.byteOrder s.mem a v) := by
  simp only [State.memWrite]
  constructor
  · intro h
    split at h
    · cases h
    · rename_i hn
      cases h
      exact ⟨State.accessible_of_none hn, rfl⟩
  · rintro ⟨h, rfl⟩
    rw [State.accessRefusal_none h]

theorem State.memWrite_error_iff {s : State} {a v : Word} {r : Refusal} :
    s.memWrite a v = .error r ↔ s.accessRefusal a = some r := by
  simp only [State.memWrite]
  split <;> simp_all

/-- The access check refuses for one of two reasons. -/
theorem State.accessRefusal_some {s : State} {a : Word} {r : Refusal}
    (h : s.accessRefusal a = some r) :
    (r = .misalignedAccess ∧ a.toNat % 2 = 1)
      ∨ (r = .unmappedAccess ∧ a.toNat % 2 = 0 ∧ s.cfg.mapped a = false) := by
  rw [State.accessRefusal_eq] at h
  split at h
  · cases h
    exact .inl ⟨rfl, by assumption⟩
  · split at h
    · cases h
    · cases h
      exact .inr ⟨rfl, by omega, by simp_all⟩

/-! ### The address sequence of LM and SM (R160) -/

@[simp] theorem sequenceAddress_zero (base : Word) : sequenceAddress base 0 = base := by
  simp [sequenceAddress]

theorem sequenceAddress_succ (base : Word) (k : Nat) :
    sequenceAddress (base + 2#16) k = sequenceAddress base (k + 1) := by
  apply BitVec.eq_of_toNat_eq
  simp only [sequenceAddress, BitVec.toNat_ofNat, BitVec.toNat_add]
  omega

theorem sequenceAddress_toNat (base : Word) (k : Nat) :
    (sequenceAddress base k).toNat = (base.toNat + 2 * k) % 65536 := by
  simp [sequenceAddress]

theorem transferOrder_nodup (m : BitVec 8) : (transferOrder m).Nodup :=
  (show (maskRegs.map Prod.snd).Nodup by decide).sublist
    (List.Sublist.map Prod.snd List.filter_sublist)

theorem transferOrder_length_le (m : BitVec 8) : (transferOrder m).length ≤ 8 :=
  (List.Sublist.map Prod.snd (List.filter_sublist (l := maskRegs))).length_le

/-! ### The reads of LM -/

/-- What LM's reads leave alone: everything but the registers of the list. -/
theorem loadRegs_frame {src : State} {rs : List Reg} {addr : Word} {t t' : State}
    (h : loadRegs src rs addr t = .ok t') :
    (∀ q, q ∉ rs → t'.readReg q = t.readReg q)
      ∧ t'.c = t.c ∧ t'.z = t.z ∧ t'.mem = t.mem ∧ t'.cfg = t.cfg := by
  induction rs generalizing addr t with
  | nil => cases h; exact ⟨fun _ _ => rfl, rfl, rfl, rfl, rfl⟩
  | cons r rs ih =>
    simp only [loadRegs] at h
    split at h
    · cases h
    · obtain ⟨hq, hc, hz, hm, hg⟩ := ih h
      refine ⟨fun q hn => ?_, by simpa using hc, by simpa using hz, by simpa using hm,
        by simpa using hg⟩
      rw [List.mem_cons, not_or] at hn
      rw [hq q hn.2, State.readReg_writeReg_ne _ _ _ _ hn.1]

/-- LM's reads answer exactly when every address of the sequence is accessible. -/
theorem loadRegs_accessible {src : State} {rs : List Reg} {addr : Word} {t t' : State}
    (h : loadRegs src rs addr t = .ok t') :
    ∀ k, k < rs.length → Accessible src (sequenceAddress addr k) := by
  induction rs generalizing addr t with
  | nil => intro k hk; cases hk
  | cons r rs ih =>
    simp only [loadRegs] at h
    split at h
    · cases h
    · rename_i v hv
      intro k hk
      cases k with
      | zero => simpa using (State.memRead_ok_iff.1 hv).1
      | succ k =>
        rw [← sequenceAddress_succ]
        exact ih h k (by simpa using hk)

theorem loadRegs_ok {src : State} {rs : List Reg} {addr : Word} (t : State)
    (h : ∀ k, k < rs.length → Accessible src (sequenceAddress addr k)) :
    ∃ t', loadRegs src rs addr t = .ok t' := by
  induction rs generalizing addr t with
  | nil => exact ⟨t, rfl⟩
  | cons r rs ih =>
    have h0 : src.memRead addr = .ok (src.wordAt addr) :=
      State.memRead_ok_iff.2 ⟨by simpa using h 0 (by simp), rfl⟩
    simp only [loadRegs, h0]
    exact ih _ fun k hk => by rw [sequenceAddress_succ]; exact h _ (by simpa using hk)

/-- Each register of LM's list receives the word of its place in the sequence. -/
theorem loadRegs_values {src : State} {rs : List Reg} {addr : Word} {t t' : State}
    (hd : rs.Nodup) (h : loadRegs src rs addr t = .ok t') :
    ∀ k q, rs[k]? = some q → t'.readReg q = src.wordAt (sequenceAddress addr k) := by
  induction rs generalizing addr t with
  | nil => intro k q hk; simp at hk
  | cons r rs ih =>
    simp only [loadRegs] at h
    split at h
    · cases h
    · rename_i v hv
      rw [List.nodup_cons] at hd
      intro k q hk
      cases k with
      | zero =>
        simp only [List.getElem?_cons_zero, Option.some.injEq] at hk
        subst hk
        rw [(loadRegs_frame h).1 r hd.1, State.readReg_writeReg_same,
          (State.memRead_ok_iff.1 hv).2, sequenceAddress_zero]
      | succ k =>
        rw [← sequenceAddress_succ]
        exact ih hd.2 h k q (by simpa using hk)

/-- Why LM's reads are refused: the access check's reason at some address of the sequence. -/
theorem loadRegs_error {src : State} {rs : List Reg} {addr : Word} {t : State} {r : Refusal}
    (h : loadRegs src rs addr t = .error r) :
    ∃ k, k < rs.length ∧ src.accessRefusal (sequenceAddress addr k) = some r := by
  induction rs generalizing addr t with
  | nil => cases h
  | cons q rs ih =>
    simp only [loadRegs] at h
    split at h
    · rename_i e he
      cases h
      exact ⟨0, by simp, by simpa using State.memRead_error_iff.1 he⟩
    · obtain ⟨k, hk, hr⟩ := ih h
      exact ⟨k + 1, by simpa using hk, by rwa [← sequenceAddress_succ]⟩

/-! ### The writes of SM -/

/-- What SM's writes leave alone: everything but memory, and of memory every byte outside the
sequence. -/
theorem storeRegs_frame {src : State} {rs : List Reg} {addr : Word} {t t' : State}
    (h : storeRegs src rs addr t = .ok t') :
    t' = t.setMem t'.mem
      ∧ ∀ a : Nat, (∀ k, k < rs.length → a ≠ (sequenceAddress addr k).toNat
            ∧ a ≠ (sequenceAddress addr k).toNat + 1) →
          t'.mem.read? a = t.mem.read? a := by
  induction rs generalizing addr t with
  | nil => cases h; exact ⟨rfl, fun _ _ => rfl⟩
  | cons r rs ih =>
    simp only [storeRegs] at h
    split at h
    · cases h
    · rename_i u hu
      obtain ⟨-, rfl⟩ := State.memWrite_ok_iff.1 hu
      obtain ⟨he, hb⟩ := ih h
      refine ⟨he, fun a ha => ?_⟩
      rw [hb a fun k hk => by rw [sequenceAddress_succ]; exact ha _ (by simpa using hk)]
      have h0 := ha 0 (by simp)
      rw [sequenceAddress_zero] at h0
      rw [State.setMem_mem, Memory.read?_writeWord, if_neg h0.1, if_neg h0.2]

theorem storeRegs_accessible {src : State} {rs : List Reg} {addr : Word} {t t' : State}
    (h : storeRegs src rs addr t = .ok t') :
    ∀ k, k < rs.length → Accessible t (sequenceAddress addr k) := by
  induction rs generalizing addr t with
  | nil => intro k hk; cases hk
  | cons r rs ih =>
    simp only [storeRegs] at h
    split at h
    · cases h
    · rename_i u hu
      obtain ⟨ha, rfl⟩ := State.memWrite_ok_iff.1 hu
      intro k hk
      cases k with
      | zero => simpa using ha
      | succ k =>
        rw [← sequenceAddress_succ]
        exact ih h k (by simpa using hk)

theorem storeRegs_ok (src : State) {rs : List Reg} {addr : Word} {t : State}
    (h : ∀ k, k < rs.length → Accessible t (sequenceAddress addr k)) :
    ∃ t', storeRegs src rs addr t = .ok t' := by
  induction rs generalizing addr t with
  | nil => exact ⟨t, rfl⟩
  | cons r rs ih =>
    have h0 := State.memWrite_ok_iff (v := src.readReg r).2
      ⟨(by simpa using h 0 (by simp) : Accessible t addr), rfl⟩
    simp only [storeRegs, h0]
    exact ih fun k hk => by
      rw [sequenceAddress_succ]
      exact h _ (by simpa using hk)

/-- Each place of SM's sequence holds the bytes of its register; the sequence is shorter than the
address space, so no store of it is overwritten by a later one. -/
theorem storeRegs_bytes {src : State} {rs : List Reg} {addr : Word} {t t' : State}
    (hl : rs.length ≤ 32768) (h : storeRegs src rs addr t = .ok t') :
    ∀ k q, rs[k]? = some q →
      t'.mem.read? (sequenceAddress addr k).toNat
          = some (splitWord t.cfg.byteOrder (src.readReg q)).1
        ∧ t'.mem.read? ((sequenceAddress addr k).toNat + 1)
          = some (splitWord t.cfg.byteOrder (src.readReg q)).2 := by
  induction rs generalizing addr t with
  | nil => intro k q hk; simp at hk
  | cons r rs ih =>
    have hall := storeRegs_accessible h
    simp only [storeRegs] at h
    split at h
    · cases h
    · rename_i u hu
      obtain ⟨ha, rfl⟩ := State.memWrite_ok_iff.1 hu
      intro k q hk
      cases k with
      | zero =>
        simp only [List.getElem?_cons_zero, Option.some.injEq] at hk
        subst hk
        have hsep : ∀ a : Nat, a = addr.toNat ∨ a = addr.toNat + 1 → ∀ k, k < rs.length →
            a ≠ (sequenceAddress (addr + 2#16) k).toNat
              ∧ a ≠ (sequenceAddress (addr + 2#16) k).toNat + 1 := by
          intro a haa k hk
          have := ha.1
          have := addr.isLt
          simp only [List.length_cons] at hl
          rw [sequenceAddress_succ, sequenceAddress_toNat]
          omega
        rw [sequenceAddress_zero, (storeRegs_frame h).2 _ (hsep _ (.inl rfl)),
          (storeRegs_frame h).2 _ (hsep _ (.inr rfl))]
        simp [Memory.read?_writeWord]
      | succ k =>
        rw [← sequenceAddress_succ]
        exact ih (by simp only [List.length_cons] at hl; omega) h k q (by simpa using hk)

/-- SM's writes keep the canonical form and whole words. -/
theorem storeRegs_inv {src : State} {rs : List Reg} {addr : Word} {t t' : State} (hi : StateInv t)
    (h : storeRegs src rs addr t = .ok t') : StateInv t' := by
  induction rs generalizing addr t with
  | nil => cases h; exact hi
  | cons r rs ih =>
    simp only [storeRegs] at h
    split at h
    · cases h
    · rename_i u hu
      obtain ⟨ha, rfl⟩ := State.memWrite_ok_iff.1 hu
      exact ih ⟨Memory.wf_writeWord _ _ hi.1 ha.1, Memory.whole_writeWord _ _ hi.2 ha.1⟩ h

theorem storeRegs_error {src : State} {rs : List Reg} {addr : Word} {t : State} {r : Refusal}
    (h : storeRegs src rs addr t = .error r) :
    ∃ k, k < rs.length ∧ t.accessRefusal (sequenceAddress addr k) = some r := by
  induction rs generalizing addr t with
  | nil => cases h
  | cons q rs ih =>
    simp only [storeRegs] at h
    split at h
    · rename_i e he
      cases h
      exact ⟨0, by simp, by simpa using State.memWrite_error_iff.1 he⟩
    · rename_i u hu
      obtain ⟨-, rfl⟩ := State.memWrite_ok_iff.1 hu
      obtain ⟨k, hk, hr⟩ := ih h
      exact ⟨k + 1, by simpa using hk, by rwa [← sequenceAddress_succ]⟩

/-! ### Outcomes -/

theorem finish_next {x : Except Refusal State} {t : State} : finish x = .next t ↔ x = .ok t := by
  cases x <;> simp [finish]

theorem finish_refused {x : Except Refusal State} {r : Refusal} :
    finish x = .refused r ↔ x = .error r := by
  cases x <;> simp [finish]

/-! ### The adder and the operand forms -/

theorem sumOf_add17 (a b : Word) (cin : Bool) :
    (sumOf (add17 a b cin)).toNat = (a.toNat + b.toNat + cin.toNat) % 65536 := by
  simp only [sumOf, add17, BitVec.extractLsb'_toNat, BitVec.toNat_ofNat, Nat.shiftRight_zero]
  omega

theorem carryOf_add17 (a b : Word) (cin : Bool) :
    carryOf (add17 a b cin) = decide (65536 ≤ a.toNat + b.toNat + cin.toNat) := by
  have := a.isLt
  have := b.isLt
  have : cin.toNat ≤ 1 := Bool.toNat_le cin
  simp only [carryOf, add17, BitVec.getLsbD, BitVec.toNat_ofNat,
    Nat.testBit_eq_decide_div_mod_eq, decide_eq_decide]
  omega

theorem zeroOf_eq (v : Word) : zeroOf v = decide (v.toNat = 0) := by
  rw [zeroOf, decide_eq_decide]
  exact ⟨fun h => by rw [h]; rfl, fun h => BitVec.eq_of_toNat_eq (by rw [h]; rfl)⟩

theorem complementIf_true_toNat (v : Word) : (complementIf true v).toNat = 65535 - v.toNat := by
  simp [complementIf, BitVec.toNat_not]

/-- A base plus a sign-extended displacement, as an integer modulo 2^16 (R143). -/
theorem effectiveAddress_toNat (base : Word) (imm6 : BitVec 6) :
    ((effectiveAddress base imm6).toNat : Int) = ((base.toNat : Int) + imm6.toInt) % 65536 := by
  have hb := imm6.isLt
  simp only [effectiveAddress, sext6, BitVec.toNat_add, BitVec.signExtend, BitVec.toNat_ofInt,
    BitVec.toInt_eq_toNat_cond]
  split <;> omega

/-- The target of a branch, as an integer modulo 2^16 (R180). -/
theorem branchTarget_toNat (pc : Word) (imm6 : BitVec 6) :
    ((branchTarget pc imm6).toNat : Int) = ((pc.toNat : Int) + 2 * imm6.toInt) % 65536 := by
  have hb := imm6.isLt
  simp only [branchTarget, timesTwo, sext6, BitVec.toNat_add, BitVec.toNat_shiftLeft,
    BitVec.signExtend, BitVec.toNat_ofInt, BitVec.toInt_eq_toNat_cond, Nat.shiftLeft_eq]
  split <;> omega

/-- The target of JAL and JRI, as an integer modulo 2^16 (R200, R202). -/
theorem jumpTarget_toNat (base : Word) (imm9 : BitVec 9) :
    ((jumpTarget base imm9).toNat : Int) = ((base.toNat : Int) + 2 * imm9.toInt) % 65536 := by
  have hb := imm9.isLt
  simp only [jumpTarget, timesTwo, sext9, BitVec.toNat_add, BitVec.toNat_shiftLeft,
    BitVec.signExtend, BitVec.toNat_ofInt, BitVec.toInt_eq_toNat_cond, Nat.shiftLeft_eq]
  split <;> omega

theorem zext9_toNat (imm9 : BitVec 9) : (zext9 imm9).toNat = imm9.toNat := by
  have := imm9.isLt
  simp only [zext9, BitVec.toNat_setWidth]
  omega

theorem sext6_toNat (imm6 : BitVec 6) :
    (sext6 imm6).toNat = if imm6.toNat < 32 then imm6.toNat else imm6.toNat + 65472 := by
  have hb := imm6.isLt
  simp only [sext6, BitVec.signExtend, BitVec.toNat_ofInt, BitVec.toInt_eq_toNat_cond]
  split <;> split <;> omega

end Sys2Proof.Machine
end

