-- ==== Sys2Proof/Laws/Exec.lean ====
section
/-! SUPPORT. What a fetch and each meaning can do, said once: if it answers a next state, that state is
one of these. The proofs about instructions and about the step cite these lemmas and unfold no
meaning. -/

namespace Sys2Proof.Machine

open Sys2Proof.Safety

/-! ### Fetching -/

/-- Two written bytes at the PC are the word there. -/
theorem State.wordAt_of_bytes {s : State} {a : Word} {lower upper : Byte}
    (h0 : s.mem.read? a.toNat = some lower) (h1 : s.mem.read? (a.toNat + 1) = some upper) :
    s.wordAt a = joinWord s.cfg.byteOrder lower upper := by
  simp only [State.wordAt, State.byteAt, h0, h1, Option.getD_some]

/-- Everything a fetch can answer (R23, R25, R47, R72, R223; U11). -/
theorem State.fetch_eq (s : State) :
    s.fetch =
      if s.pc.toNat % 2 = 1 then .error .misalignedFetch
      else if s.cfg.mapped s.pc = false then .error .unmappedAccess
      else if wordWritten s s.pc = false then .error .unwrittenRead
      else
        match decode (s.wordAt s.pc) with
        | .ok i => .ok i
        | .error _ => .error .reservedEncoding := by
  simp only [State.fetch, State.fetchBytes, getLsbD_zero_eq, decide_eq_true_eq]
  by_cases h0 : s.pc.toNat % 2 = 1
  · simp [h0]
  · by_cases hm : s.cfg.mapped s.pc = true
    · simp only [h0, hm, if_false, Bool.not_true, Bool.false_eq_true, Bool.true_eq_false]
      obtain h1 | ⟨lower, h1⟩ := Option.eq_none_or_eq_some (s.mem.read? s.pc.toNat)
      · simp [wordWritten, h1]
      · obtain h2 | ⟨upper, h2⟩ := Option.eq_none_or_eq_some (s.mem.read? (s.pc.toNat + 1))
        · simp [wordWritten, h1, h2]
        · rw [State.wordAt_of_bytes h1 h2]
          simp only [wordWritten, h1, h2, decodeBytes, Option.isSome_some, Bool.and_self,
            Bool.true_eq_false, if_false]
          cases decode (joinWord s.cfg.byteOrder lower upper) <;> rfl
    · simp only [Bool.not_eq_true] at hm
      simp [h0, hm]

/-- A fetch answers an instruction exactly when the PC is even and mapped, the word there is written
and decodes to it. -/
theorem State.fetch_ok_iff {s : State} {i : Instr} :
    s.fetch = .ok i ↔ Accessible s s.pc ∧ wordWritten s s.pc = true
      ∧ decode (s.wordAt s.pc) = .ok i := by
  rw [State.fetch_eq, Accessible]
  have h0 : ¬ s.pc.toNat % 2 = 1 ↔ s.pc.toNat % 2 = 0 := by omega
  split
  · simp_all
  · split
    · simp_all
    · split
      · simp_all
      · cases decode (s.wordAt s.pc) <;> simp_all

/-- A step with a next state ran the instruction it fetched. -/
theorem step_next_iff {s t : State} :
    step s = .next t ↔ ∃ i, s.fetch = .ok i ∧ exec i s = .next t := by
  simp only [step]
  cases s.fetch <;> simp

/-- The two bytes of an instruction are fetched exactly from an even, mapped, written word. -/
theorem State.fetchBytes_isOk_iff {s : State} :
    (∃ b, s.fetchBytes = .ok b) ↔ Accessible s s.pc ∧ wordWritten s s.pc = true := by
  have h0 : s.pc.toNat % 2 = 0 ↔ ¬ s.pc.toNat % 2 = 1 := by omega
  simp only [State.fetchBytes, getLsbD_zero_eq, decide_eq_true_eq, Accessible, wordWritten, h0]
  by_cases hp : s.pc.toNat % 2 = 1
  · simp [hp]
  · by_cases hm : s.cfg.mapped s.pc = true
    · cases s.mem.read? s.pc.toNat <;> cases s.mem.read? (s.pc.toNat + 1) <;> simp [hp, hm]
    · simp [hp, hm]

/-- Everything the cautious step can answer (R53): FetchAfterStore at a recorded PC where nothing
else refuses the bytes, and otherwise what the step answers, with the words stored recorded. -/
theorem cautiousStep_cases (stored : List Word) (s : State) :
    (s.pc ∈ stored ∧ Accessible s s.pc ∧ wordWritten s s.pc = true
        ∧ cautiousStep stored s = .refused .fetchAfterStore)
    ∨ (∃ r, s.fetch = .error r ∧ cautiousStep stored s = .refused r)
    ∨ ∃ i, s.pc ∉ stored ∧ s.fetch = .ok i
        ∧ cautiousStep stored s =
          match exec i s with
          | .next t => .next (storedBy i s ++ stored, t)
          | .refused r => .refused r
          | .fault f => .fault f := by
  have hb := State.fetchBytes_isOk_iff (s := s)
  cases h : s.fetchBytes with
  | error r => exact .inr (.inl ⟨r, by simp [State.fetch, h], by simp [cautiousStep, h]⟩)
  | ok b =>
    obtain ⟨ha, hw⟩ := hb.1 ⟨b, h⟩
    by_cases hm : s.pc ∈ stored
    · exact .inl ⟨hm, ha, hw, by simp [cautiousStep, h, hm]⟩
    · cases hf : s.fetch with
      | error r => exact .inr (.inl ⟨r, rfl, by simp [cautiousStep, h, hm, hf]⟩)
      | ok i =>
        refine .inr (.inr ⟨i, hm, rfl, ?_⟩)
        cases he : exec i s <;> simp [cautiousStep, h, hm, hf, he]

/-- A run of one more step, when the first step has a next state. -/
theorem core_run_succ {s t : State} (k : Nat) (h : step s = .next t) :
    core.run (k + 1) s = core.run k t := by
  show Host.Core.run core (k + 1) s = _
  simp only [Host.Core.run]
  rw [show core.step s = .next t from h]

/-! ### Writing a result -/

section

variable (s : State) (rd q : Reg) (tt : BitVec 17) (v : Word)

@[simp] theorem writeSum_readReg : (writeSum rd tt s).readReg rd = sumOf tt := by simp [writeSum]
@[simp] theorem writeSum_c : (writeSum rd tt s).c = carryOf tt := rfl
@[simp] theorem writeSum_z : (writeSum rd tt s).z = zeroOf (sumOf tt) := rfl
@[simp] theorem writeSum_mem : (writeSum rd tt s).mem = s.mem := by simp [writeSum]
@[simp] theorem writeSum_cfg : (writeSum rd tt s).cfg = s.cfg := by simp [writeSum]

theorem writeSum_readReg_ne (h0 : q ≠ .r0) (hd : q ≠ rd) :
    (writeSum rd tt s).readReg q = s.readReg q := by
  simp [writeSum, State.readReg_writeReg_ne _ _ _ _ hd, State.readReg_advance_ne _ _ h0]

theorem writeSum_pc (h : rd ≠ .r0) : (writeSum rd tt s).pc = s.nextPc := by
  simp [writeSum, State.writeReg_pc_of_ne _ _ _ h]

@[simp] theorem writeZeroTested_readReg : (writeZeroTested rd v s).readReg rd = v := by
  simp [writeZeroTested]
@[simp] theorem writeZeroTested_c : (writeZeroTested rd v s).c = s.c := by simp [writeZeroTested]
@[simp] theorem writeZeroTested_z : (writeZeroTested rd v s).z = zeroOf v := rfl
@[simp] theorem writeZeroTested_mem : (writeZeroTested rd v s).mem = s.mem := by
  simp [writeZeroTested]
@[simp] theorem writeZeroTested_cfg : (writeZeroTested rd v s).cfg = s.cfg := by
  simp [writeZeroTested]

theorem writeZeroTested_readReg_ne (h0 : q ≠ .r0) (hd : q ≠ rd) :
    (writeZeroTested rd v s).readReg q = s.readReg q := by
  simp [writeZeroTested, State.readReg_writeReg_ne _ _ _ _ hd, State.readReg_advance_ne _ _ h0]

theorem writeZeroTested_pc (h : rd ≠ .r0) : (writeZeroTested rd v s).pc = s.nextPc := by
  simp [writeZeroTested, State.writeReg_pc_of_ne _ _ _ h]

end

/-! ### The instructions whose meaning can refuse -/

section

variable {s t : State} {ra rb : Reg} {imm6 : BitVec 6} {imm9 : BitVec 9} {mask8 : BitVec 8}

/-- LW answers exactly at an accessible address. -/
theorem exec_lw_next :
    exec (.lw ra rb imm6) s = .next t ↔
      Accessible s (effectiveAddress (s.readReg rb) imm6)
        ∧ t = writeZeroTested ra (s.wordAt (effectiveAddress (s.readReg rb) imm6)) s := by
  simp only [exec, execLw]
  constructor
  · intro h
    split at h
    · cases h
    · rename_i v hv
      cases h
      obtain ⟨ha, rfl⟩ := State.memRead_ok_iff.1 hv
      exact ⟨ha, rfl⟩
  · rintro ⟨ha, rfl⟩
    rw [State.memRead_ok_iff.2 ⟨ha, rfl⟩]

/-- SW answers exactly at an accessible address. -/
theorem exec_sw_next :
    exec (.sw ra rb imm6) s = .next t ↔
      Accessible s (effectiveAddress (s.readReg rb) imm6)
        ∧ t = s.advance.setMem (Memory.writeWord s.cfg.byteOrder s.mem
            (effectiveAddress (s.readReg rb) imm6) (s.readReg ra)) := by
  simp only [exec, execSw, finish_next, State.memWrite_ok_iff]
  exact Iff.rfl

theorem exec_lm_next :
    exec (.lm ra mask8) s = .next t ↔
      loadRegs s (transferOrder mask8) (s.readReg ra) s.advance = .ok t := finish_next

theorem exec_sm_next :
    exec (.sm ra mask8) s = .next t ↔
      storeRegs s (transferOrder mask8) (s.readReg ra) s.advance = .ok t := finish_next

theorem linkAndGo_next {v : Word} :
    linkAndGo ra v s = .next t ↔ ra ≠ .r0 ∧ t = (s.writeReg ra s.nextPc).setPc v := by
  simp only [linkAndGo]
  split <;> simp_all [eq_comm]

theorem exec_jal_next :
    exec (.jal ra imm9) s = .next t ↔
      ra ≠ .r0 ∧ t = (s.writeReg ra s.nextPc).setPc (jumpTarget s.pc imm9) := linkAndGo_next

theorem exec_jlr_next :
    exec (.jlr ra rb) s = .next t ↔
      ra ≠ .r0 ∧ t = (s.writeReg ra s.nextPc).setPc (s.readReg rb) := linkAndGo_next

end

/-! ### Every instruction -/

/-- The ways an instruction changes the state: what every next state of `exec` is. -/
inductive Effect (s : State) : Instr → State → Prop
  /-- A sum and both flags go to their places. -/
  | sum {i : Instr} (rd : Reg) (tt : BitVec 17) (hd : destinations i = [rd]) (hs : ¬ isStore i)
      (hb : branchesOrJumps i = false) : Effect s i (writeSum rd tt s)
  /-- A value and its zero test go to their places. -/
  | zeroTested {i : Instr} (rd : Reg) (v : Word) (hd : destinations i = [rd]) (hs : ¬ isStore i)
      (hb : branchesOrJumps i = false) : Effect s i (writeZeroTested rd v s)
  /-- Only the PC advances: a condition that does not hold, or a branch not taken. -/
  | advance {i : Instr} (hs : ¬ isStore i) : Effect s i s.advance
  | lli {ra : Reg} {imm9 : BitVec 9} : Effect s (.lli ra imm9) (s.advance.writeReg ra (zext9 imm9))
  | sw {ra rb : Reg} {imm6 : BitVec 6} (ha : Accessible s (effectiveAddress (s.readReg rb) imm6)) :
      Effect s (.sw ra rb imm6) (s.advance.setMem (Memory.writeWord s.cfg.byteOrder s.mem
        (effectiveAddress (s.readReg rb) imm6) (s.readReg ra)))
  | lm {ra : Reg} {mask8 : BitVec 8} {t : State}
      (h : loadRegs s (transferOrder mask8) (s.readReg ra) s.advance = .ok t) :
      Effect s (.lm ra mask8) t
  | sm {ra : Reg} {mask8 : BitVec 8} {t : State}
      (h : storeRegs s (transferOrder mask8) (s.readReg ra) s.advance = .ok t) :
      Effect s (.sm ra mask8) t
  /-- Only the PC changes: a taken branch, or JRI. -/
  | go {i : Instr} (v : Word) (hs : ¬ isStore i) (hb : branchesOrJumps i = true) :
      Effect s i (s.setPc v)
  /-- A link register and the PC change: JAL and JLR. -/
  | link {i : Instr} (ra : Reg) (v : Word) (hr : ra ≠ .r0) (hd : destinations i = [ra])
      (hs : ¬ isStore i) (hb : branchesOrJumps i = true) :
      Effect s i ((s.writeReg ra s.nextPc).setPc v)

/-- Every next state of every instruction is one of these. -/
theorem exec_effect {i : Instr} {s t : State} (h : exec i s = .next t) : Effect s i t := by
  cases i
  case lw =>
    obtain ⟨-, rfl⟩ := exec_lw_next.1 h
    exact .zeroTested _ _ rfl (by simp [isStore]) rfl
  case sw =>
    obtain ⟨ha, rfl⟩ := exec_sw_next.1 h
    exact .sw ha
  case lm => exact .lm (exec_lm_next.1 h)
  case sm => exact .sm (exec_sm_next.1 h)
  case jal =>
    obtain ⟨hr, rfl⟩ := exec_jal_next.1 h
    exact .link _ _ hr rfl (by simp [isStore]) rfl
  case jlr =>
    obtain ⟨hr, rfl⟩ := exec_jlr_next.1 h
    exact .link _ _ hr rfl (by simp [isStore]) rfl
  case jri => cases h; exact .go _ (by simp [isStore]) rfl
  case lli => cases h; exact .lli
  case adi => cases h; exact .sum _ _ rfl (by simp [isStore]) rfl
  case beq | blt | ble =>
    simp only [exec, execBeq, execBlt, execBle, branchIf] at h
    split at h <;> cases h
    · exact .go _ (by simp [isStore]) rfl
    · exact .advance (by simp [isStore])
  case ndu | ncu => cases h; exact .zeroTested _ _ rfl (by simp [isStore]) rfl
  case ndc | ndz | ncc | ncz =>
    simp only [exec, execNdc, execNdz, execNcc, execNcz, nandGroup, nandIf] at h
    split at h <;> cases h
    · exact .zeroTested _ _ rfl (by simp [isStore]) rfl
    · exact .advance (by simp [isStore])
  case ada | aca | awc | acw => cases h; exact .sum _ _ rfl (by simp [isStore]) rfl
  case adc | adz | acc | acz =>
    simp only [exec, execAdc, execAdz, execAcc, execAcz, addGroup] at h
    split at h <;> cases h
    · exact .sum _ _ rfl (by simp [isStore]) rfl
    · exact .advance (by simp [isStore])

/-! ### States that hold the same words -/

/-- A word written at the same even address of two states that hold the same words, each in its own
byte order, leaves them holding the same words (R43). -/
theorem sameWords_placeWord {s t : State} (h : SameWords s t) {a v : Word} (ha : a.toNat % 2 = 0) :
    SameWords (s.placeWord a v) (t.placeWord a v) := by
  have hm : ∀ u : State, (u.placeWord a v).mem = Memory.writeWord u.cfg.byteOrder u.mem a v :=
    fun _ => rfl
  refine ⟨fun q => ?_, h.flags, h.params, fun b hb => ?_, fun b hb => ?_⟩
  · simpa [State.placeWord] using h.regs q
  · by_cases hab : b = a
    · subst hab
      rw [State.wordAt_of_writeWord (t := s.placeWord b v) (hm s),
        State.wordAt_of_writeWord (t := t.placeWord b v) (hm t)]
    · have hne : b.toNat ≠ a.toNat := fun h => hab (BitVec.eq_of_toNat_eq h)
      have key : ∀ u : State, (u.placeWord a v).wordAt b = u.wordAt b := fun u => by
        refine State.wordAt_congr rfl ?_ ?_ <;>
          rw [hm, Memory.read?_writeWord, if_neg (by omega), if_neg (by omega)]
      rw [key, key, h.words b hb]
  · have := h.written b hb
    simp only [wordWritten, hm, Memory.read?_writeWord] at this ⊢
    by_cases hab : b.toNat = a.toNat
    · simp [hab]
    · have e1 : ¬ b.toNat = a.toNat + 1 := by omega
      have e2 : ¬ b.toNat + 1 = a.toNat + 1 := by omega
      have e3 : ¬ b.toNat + 1 = a.toNat := by omega
      simpa only [if_neg hab, if_neg e1, if_neg e2, if_neg e3] using this

/-- With no word written, two states that differ in byte order alone hold the same words. -/
theorem sameWords_of_empty {s : State} (o : ByteOrder) (h : s.mem = []) :
    SameWords s { s with cfg := { s.cfg with byteOrder := o } } := by
  refine ⟨fun q => by cases q <;> rfl, ⟨rfl, rfl⟩, rfl, fun a ha => ?_, fun a _ => rfl⟩
  rw [State.wordAt_of_unwritten ha (by rw [h]; rfl) (by rw [h]; rfl),
    State.wordAt_of_unwritten ha (by rw [h]; rfl) (by rw [h]; rfl)]

end Sys2Proof.Machine
end

