-- ==== Sys2Proof/Laws/PerInstr.lean ====
section
/-! SUPPORT. Statements for all instructions, one lemma per constructor.

`EncodeMatchesRow`: the word of an instruction meets its row of the opcode table (30_encoding.md R66),
whatever its operands. -/

namespace Sys2Proof.Laws

/-- The instruction's word, under the mask of its row, is the row's value. -/
def EncodeMatchesRow.Statement (i : Instr) : Prop := encode i &&& i.row.mask = i.row.value

theorem encR_row (op : BitVec 4) (ra rb rc : Reg) (kcz : BitVec 3) :
    (encR op ra rb rc kcz &&& 0xF007#16).toNat = op.toNat * 4096 + kcz.toNat := by
  have := ra.num_lt; have := rb.num_lt; have := rc.num_lt; have := kcz.isLt
  rw [and_f007_toNat, encR_toNat]
  omega

theorem encI_row (op : BitVec 4) (ra rb : Reg) (imm6 : BitVec 6) :
    (encI op ra rb imm6 &&& 0xF000#16).toNat = op.toNat * 4096 := by
  have := ra.num_lt; have := rb.num_lt; have := imm6.isLt
  rw [and_f000_toNat, encI_toNat]
  omega

theorem encI_zero_row (op : BitVec 4) (ra rb : Reg) :
    (encI op ra rb 0#6 &&& 0xF03F#16).toNat = op.toNat * 4096 := by
  have := ra.num_lt; have := rb.num_lt
  rw [and_f03f_toNat, encI_toNat, BitVec.toNat_ofNat]
  omega

theorem encJ_row (op : BitVec 4) (ra : Reg) (imm9 : BitVec 9) :
    (encJ op ra imm9 &&& 0xF000#16).toNat = op.toNat * 4096 := by
  have := ra.num_lt; have := imm9.isLt
  rw [and_f000_toNat, encJ_toNat]
  omega

theorem encM_row (op : BitVec 4) (ra : Reg) (mask8 : BitVec 8) :
    (encJ op ra (0#1 ++ mask8) &&& 0xF100#16).toNat = op.toNat * 4096 := by
  have := ra.num_lt; have := mask8.isLt
  rw [and_f100_toNat, encJ_toNat, append_toNat, BitVec.toNat_ofNat]
  omega

namespace EncodeMatchesRow

theorem ada (ra rb rc : Reg) : Statement (.ada ra rb rc) :=
  BitVec.eq_of_toNat_eq (encR_row _ ra rb rc _)

theorem adc (ra rb rc : Reg) : Statement (.adc ra rb rc) :=
  BitVec.eq_of_toNat_eq (encR_row _ ra rb rc _)

theorem adz (ra rb rc : Reg) : Statement (.adz ra rb rc) :=
  BitVec.eq_of_toNat_eq (encR_row _ ra rb rc _)

theorem awc (ra rb rc : Reg) : Statement (.awc ra rb rc) :=
  BitVec.eq_of_toNat_eq (encR_row _ ra rb rc _)

theorem aca (ra rb rc : Reg) : Statement (.aca ra rb rc) :=
  BitVec.eq_of_toNat_eq (encR_row _ ra rb rc _)

theorem acc (ra rb rc : Reg) : Statement (.acc ra rb rc) :=
  BitVec.eq_of_toNat_eq (encR_row _ ra rb rc _)

theorem acz (ra rb rc : Reg) : Statement (.acz ra rb rc) :=
  BitVec.eq_of_toNat_eq (encR_row _ ra rb rc _)

theorem acw (ra rb rc : Reg) : Statement (.acw ra rb rc) :=
  BitVec.eq_of_toNat_eq (encR_row _ ra rb rc _)

theorem adi (ra rb : Reg) (imm6 : BitVec 6) : Statement (.adi ra rb imm6) :=
  BitVec.eq_of_toNat_eq (encI_row _ ra rb imm6)

theorem ndu (ra rb rc : Reg) : Statement (.ndu ra rb rc) :=
  BitVec.eq_of_toNat_eq (encR_row _ ra rb rc _)

theorem ndc (ra rb rc : Reg) : Statement (.ndc ra rb rc) :=
  BitVec.eq_of_toNat_eq (encR_row _ ra rb rc _)

theorem ndz (ra rb rc : Reg) : Statement (.ndz ra rb rc) :=
  BitVec.eq_of_toNat_eq (encR_row _ ra rb rc _)

theorem ncu (ra rb rc : Reg) : Statement (.ncu ra rb rc) :=
  BitVec.eq_of_toNat_eq (encR_row _ ra rb rc _)

theorem ncc (ra rb rc : Reg) : Statement (.ncc ra rb rc) :=
  BitVec.eq_of_toNat_eq (encR_row _ ra rb rc _)

theorem ncz (ra rb rc : Reg) : Statement (.ncz ra rb rc) :=
  BitVec.eq_of_toNat_eq (encR_row _ ra rb rc _)

theorem lli (ra : Reg) (imm9 : BitVec 9) : Statement (.lli ra imm9) :=
  BitVec.eq_of_toNat_eq (encJ_row _ ra imm9)

theorem lw (ra rb : Reg) (imm6 : BitVec 6) : Statement (.lw ra rb imm6) :=
  BitVec.eq_of_toNat_eq (encI_row _ ra rb imm6)

theorem sw (ra rb : Reg) (imm6 : BitVec 6) : Statement (.sw ra rb imm6) :=
  BitVec.eq_of_toNat_eq (encI_row _ ra rb imm6)

theorem lm (ra : Reg) (mask8 : BitVec 8) : Statement (.lm ra mask8) :=
  BitVec.eq_of_toNat_eq (encM_row _ ra mask8)

theorem sm (ra : Reg) (mask8 : BitVec 8) : Statement (.sm ra mask8) :=
  BitVec.eq_of_toNat_eq (encM_row _ ra mask8)

theorem beq (ra rb : Reg) (imm6 : BitVec 6) : Statement (.beq ra rb imm6) :=
  BitVec.eq_of_toNat_eq (encI_row _ ra rb imm6)

theorem blt (ra rb : Reg) (imm6 : BitVec 6) : Statement (.blt ra rb imm6) :=
  BitVec.eq_of_toNat_eq (encI_row _ ra rb imm6)

theorem ble (ra rb : Reg) (imm6 : BitVec 6) : Statement (.ble ra rb imm6) :=
  BitVec.eq_of_toNat_eq (encI_row _ ra rb imm6)

theorem jal (ra : Reg) (imm9 : BitVec 9) : Statement (.jal ra imm9) :=
  BitVec.eq_of_toNat_eq (encJ_row _ ra imm9)

theorem jlr (ra rb : Reg) : Statement (.jlr ra rb) :=
  BitVec.eq_of_toNat_eq (encI_zero_row _ ra rb)

theorem jri (ra : Reg) (imm9 : BitVec 9) : Statement (.jri ra imm9) :=
  BitVec.eq_of_toNat_eq (encJ_row _ ra imm9)

end EncodeMatchesRow

end Sys2Proof.Laws
end

