-- ==== Sys2Proof/Tests/Slice0.lean ====
section
/-! SUPPORT. Small tests: ill-formed terms, words written out from the spec's encodings, single steps
from 95_test_vectors.md, the host's interface, and for every statement with hypotheses a state and
operands that meet them. Expected results are the spec's own, named in each comment. -/

namespace Sys2Proof.Tests

open Sys2Proof.Machine Sys2Proof.Safety

/-! ### What a test sets up and looks at -/

/-- The reset state with CMP_SIGNED, a PC and flags chosen. -/
def blank (signed : Bool) (pc : Word) (c z : Bool) : State :=
  { State.reset with pc := pc, c := c, z := z, cfg := { resetConfig with cmpSigned := signed } }

/-- The state before a vector: registers set, the instruction word at the PC, data words in memory. -/
def before (signed : Bool) (pc word : Word) (regs : List (Reg × Word)) (c z : Bool)
    (data : List (Word × Word)) : State :=
  (regs.foldl (fun s p => s.writeReg p.1 p.2) (blank signed pc c z)).loadWords ((pc, word) :: data)

/-- What a test looks at: some registers, both flags, some words of memory; or the refusal. -/
inductive Sight where
  | next (regs : List Word) (c z : Bool) (words : List Word)
  | refused (r : Refusal)
  deriving DecidableEq, Repr

/-- Look at an outcome. -/
def sees (regs : List Reg) (addrs : List Word) (o : Host.Outcome State Fault Refusal) : Sight :=
  match o with
  | .next t => .next (regs.map t.readReg) t.c t.z (addrs.map t.wordAt)
  | .refused r => .refused r
  | .fault f => nomatch f

/-- The outcome is a next state with a property. -/
def nextHas (p : State → Bool) (o : Host.Outcome State Fault Refusal) : Bool :=
  match o with
  | .next t => p t
  | .refused _ => false
  | .fault _ => false

theorem next_of_nextHas {p : State → Bool} {o : Host.Outcome State Fault Refusal}
    (h : nextHas p o = true) : ∃ t, o = .next t ∧ p t = true := by
  cases o with
  | next t => exact ⟨t, rfl, h⟩
  | refused _ => cases h
  | fault _ => cases h

theorem next_of_any {o : Host.Outcome State Fault Refusal} (h : nextHas (fun _ => true) o = true) :
    ∃ t, o = .next t :=
  (next_of_nextHas h).imp fun _ ht => ht.1

/-- The run has ended. -/
def hasEnded : RunResult → Bool
  | .ended _ => true
  | .going _ => false
  | .refused _ => false
  | .fault _ => false

theorem ended_of {r : RunResult} (h : hasEnded r = true) : ∃ t, r = .ended t := by
  cases r with
  | ended t => exact ⟨t, rfl⟩
  | going _ => cases h
  | refused _ => cases h
  | fault _ => cases h

/-! ### Well-formedness: the terms the check refuses, and a neighbour it accepts (R22) -/

theorem test_wellFormed_jal_r0 : (Instr.jal .r0 4#9).wellFormed = false := by decide

theorem test_wellFormed_jlr_r0 : (Instr.jlr .r0 .r7).wellFormed = false := by decide

theorem test_wellFormed_jal_r7 : (Instr.jal .r7 4#9).wellFormed = true := by decide

theorem test_wellFormed_jlr_from_r0 : (Instr.jlr .r6 .r0).wellFormed = true := by decide

/-! ### Words written out bit by bit from the rows of R66: opcode, RA, RB, RC, K, CZ or immediate -/

theorem test_words_add_group :
    decode 0b0001_001_010_011_0_00#16 = .ok (.ada .r1 .r2 .r3)
      ∧ decode 0b0001_111_000_110_0_10#16 = .ok (.adc .r7 .r0 .r6)
      ∧ decode 0b0001_100_101_001_0_01#16 = .ok (.adz .r4 .r5 .r1)
      ∧ decode 0b0001_001_010_011_0_11#16 = .ok (.awc .r1 .r2 .r3)
      ∧ decode 0b0001_011_111_100_1_00#16 = .ok (.aca .r3 .r7 .r4)
      ∧ decode 0b0001_001_010_011_1_10#16 = .ok (.acc .r1 .r2 .r3)
      ∧ decode 0b0001_110_001_010_1_01#16 = .ok (.acz .r6 .r1 .r2)
      ∧ decode 0b0001_001_010_000_1_11#16 = .ok (.acw .r1 .r2 .r0)
      ∧ decode 0b0000_001_010_111111#16 = .ok (.adi .r1 .r2 0b111111#6) := by
  decide

theorem test_words_nand_group :
    decode 0b0010_001_010_011_0_00#16 = .ok (.ndu .r1 .r2 .r3)
      ∧ decode 0b0010_111_000_110_0_10#16 = .ok (.ndc .r7 .r0 .r6)
      ∧ decode 0b0010_100_101_001_0_01#16 = .ok (.ndz .r4 .r5 .r1)
      ∧ decode 0b0010_011_111_100_1_00#16 = .ok (.ncu .r3 .r7 .r4)
      ∧ decode 0b0010_001_010_011_1_10#16 = .ok (.ncc .r1 .r2 .r3)
      ∧ decode 0b0010_110_001_010_1_01#16 = .ok (.ncz .r6 .r1 .r2) := by
  decide

theorem test_words_load_store :
    decode 0b0011_001_100000000#16 = .ok (.lli .r1 0b100000000#9)
      ∧ decode 0b0100_111_110_000010#16 = .ok (.lw .r7 .r6 0b000010#6)
      ∧ decode 0b0101_001_010_100000#16 = .ok (.sw .r1 .r2 0b100000#6)
      ∧ decode 0b0110_110_0_11000000#16 = .ok (.lm .r6 0b11000000#8)
      ∧ decode 0b0111_001_0_01000001#16 = .ok (.sm .r1 0b01000001#8) := by
  decide

theorem test_words_branch_jump :
    decode 0b1000_011_001_111101#16 = .ok (.beq .r3 .r1 0b111101#6)
      ∧ decode 0b1001_001_010_000101#16 = .ok (.blt .r1 .r2 0b000101#6)
      ∧ decode 0b1010_001_010_111100#16 = .ok (.ble .r1 .r2 0b111100#6)
      ∧ decode 0b1100_111_100000000#16 = .ok (.jal .r7 0b100000000#9)
      ∧ decode 0b1101_110_111_000000#16 = .ok (.jlr .r6 .r7)
      ∧ decode 0b1111_001_011111111#16 = .ok (.jri .r1 0b011111111#9) := by
  decide

/-- One word of each row of R72's table (V-RSV-01, -03, -04, V-J-13, V-LSM-10, V-LSM-18). -/
theorem test_words_reserved :
    decode 0xB000#16 = .error .opcode1011 ∧ decode 0xE123#16 = .error .opcode1110
      ∧ decode 0x2003#16 = .error .nandWithCarry ∧ decode 0x2007#16 = .error .nandWithCarry
      ∧ decode 0xDDC1#16 = .error .jlrLowBits ∧ decode 0xDFE0#16 = .error .jlrLowBits
      ∧ decode 0x6300#16 = .error .multipleBit8 ∧ decode 0x7180#16 = .error .multipleBit8 := by
  decide

theorem test_bytes_of_a_word :
    decodeBytes .little [0x98#8, 0x12#8] = .ok (.ada .r1 .r2 .r3, [])
      ∧ decodeBytes .big [0x12#8, 0x98#8, 0xFF#8] = .ok (.ada .r1 .r2 .r3, [0xFF#8])
      ∧ decodeBytes .big [0x12#8] = .error .truncated ∧ decodeBytes .little [] = .error .truncated := by
  decide

/-! ### Assembly lines (R75) -/

theorem test_line_adi :
    assemble ⟨"adi", [.reg .r2, .reg .r1, .imm (-1)]⟩ = some (.adi .r1 .r2 0b111111#6) := by
  decide

theorem test_line_lli_out_of_range : assemble ⟨"lli", [.reg .r1, .imm 512]⟩ = none := by decide

/-! ### The host's interface -/

theorem test_decodeTableWord :
    decodeTableWord 16 0x1298 = some (.ada .r1 .r2 .r3) ∧ decodeTableWord 16 0xD001 = none := by
  decide

/-- `lli r1, 5` as the first instruction after reset. -/
theorem test_withFetchWord :
    sees [.r0, .r1] [] (step (State.reset.withFetchWord 16 0x3205))
      = .next [0x0002, 0x0005] false false [] := by
  decide

theorem test_reset_memory_wf : State.reset.mem.wf ∧ State.reset.mem.whole := by decide

/-- With nothing loaded, the first fetch meets an unwritten word (U11). -/
theorem test_step_from_bare_reset : sees [] [] (step State.reset) = .refused .unwrittenRead := by decide

/-- An LW of a word that nothing has written runs (U11): `lw r1, r1, 2` at r1 = 0x0300. -/
theorem test_lw_unwritten_goes_on :
    nextHas (fun t => t.pc == 0x0102#16)
      (step (before false 0x0100 0x4242 [(.r1, 0x0300)] false false [])) = true := by
  decide

/-! ### Single steps of 95_test_vectors.md -/

/-- V-ADD-02: `ada r3, r1, r2`. -/
theorem test_ada_carry_out_and_zero :
    sees [.r0, .r3] []
      (step (before false 0x0100 0x1298 [(.r1, 0xFFFF), (.r2, 0x0001)] false false []))
      = .next [0x0102, 0x0000] true true [] := by
  decide

/-- V-ADD-06: `ada r0, r1, r2`. -/
theorem test_ada_into_pc :
    sees [.r0] [] (step (before false 0x0100 0x1280 [(.r1, 0x0200), (.r2, 0x0010)] false false []))
      = .next [0x0210] false false [] := by
  decide

/-- V-ADD-08: `adc r3, r1, r2`. -/
theorem test_adc_executes :
    sees [.r0, .r3] []
      (step (before false 0x0100 0x129A [(.r1, 0x0001), (.r2, 0x0002), (.r3, 0xAAAA)] true false
        []))
      = .next [0x0102, 0x0003] false false [] := by
  decide

/-- V-ADD-09: `adc r3, r1, r2`. -/
theorem test_adc_carry_clear :
    sees [.r0, .r3] []
      (step (before false 0x0100 0x129A [(.r1, 0x0001), (.r2, 0x0002), (.r3, 0xAAAA)] false true
        []))
      = .next [0x0102, 0xAAAA] false true [] := by
  decide

/-- V-ADD-10: `adz r3, r1, r2`. -/
theorem test_adz_executes :
    sees [.r0, .r3] []
      (step (before false 0x0100 0x1299 [(.r1, 0x0001), (.r2, 0x0002), (.r3, 0xAAAA)] false true
        []))
      = .next [0x0102, 0x0003] false false [] := by
  decide

/-- V-ADD-12: `adz r0, r1, r2`. -/
theorem test_adz_zero_clear_does_not_jump :
    sees [.r0] [] (step (before false 0x0100 0x1281 [(.r1, 0x0200), (.r2, 0x0010)] false false []))
      = .next [0x0102] false false [] := by
  decide

/-- V-ADD-13: `awc r3, r1, r2`. -/
theorem test_awc_adds_carry :
    sees [.r0, .r3] []
      (step (before false 0x0100 0x129B [(.r1, 0xFFFF), (.r2, 0x0000)] true false []))
      = .next [0x0102, 0x0000] true true [] := by
  decide

/-- V-ADD-14: `awc r3, r1, r2`. -/
theorem test_awc_largest_sum :
    sees [.r0, .r3] []
      (step (before false 0x0100 0x129B [(.r1, 0xFFFF), (.r2, 0xFFFF)] true false []))
      = .next [0x0102, 0xFFFF] true false [] := by
  decide

/-- V-ADD-17: `aca r3, r1, r2`. -/
theorem test_aca_borrow :
    sees [.r0, .r3] []
      (step (before false 0x0100 0x129C [(.r1, 0x0003), (.r2, 0x0005)] false false []))
      = .next [0x0102, 0xFFFD] false false [] := by
  decide

/-- V-ADD-19: `aca r3, r1, r2`. -/
theorem test_aca_zero_without_carry :
    sees [.r0, .r3] []
      (step (before false 0x0100 0x129C [(.r1, 0x0000), (.r2, 0xFFFF)] true false []))
      = .next [0x0102, 0x0000] false true [] := by
  decide

/-- V-ADD-21: `acc r3, r1, r2`. -/
theorem test_acc_executes :
    sees [.r0, .r3] []
      (step (before false 0x0100 0x129E [(.r1, 0x0005), (.r2, 0x0003), (.r3, 0xAAAA)] true false
        []))
      = .next [0x0102, 0x0001] true false [] := by
  decide

/-- V-ADD-22: `acc r3, r1, r2`. -/
theorem test_acc_carry_clear :
    sees [.r0, .r3] []
      (step (before false 0x0100 0x129E [(.r1, 0x0005), (.r2, 0x0003), (.r3, 0xAAAA)] false false
        []))
      = .next [0x0102, 0xAAAA] false false [] := by
  decide

/-- V-ADD-23: `acz r3, r1, r2`. -/
theorem test_acz_executes :
    sees [.r0, .r3] []
      (step (before false 0x0100 0x129D [(.r1, 0x0005), (.r2, 0x0003), (.r3, 0xAAAA)] false true
        []))
      = .next [0x0102, 0x0001] true false [] := by
  decide

/-- V-ADD-24: `acz r3, r1, r2`. -/
theorem test_acz_zero_clear :
    sees [.r0, .r3] []
      (step (before false 0x0100 0x129D [(.r1, 0x0005), (.r2, 0x0003), (.r3, 0xAAAA)] true false
        []))
      = .next [0x0102, 0xAAAA] true false [] := by
  decide

/-- V-ADD-27: `acw r3, r1, r2`. -/
theorem test_acw_equal_operands :
    sees [.r0, .r3] []
      (step (before false 0x0100 0x129F [(.r1, 0x0005), (.r2, 0x0005)] true false []))
      = .next [0x0102, 0x0000] true true [] := by
  decide

/-- V-ADD-26: `acw r3, r1, r2`. -/
theorem test_acw_carry_clear :
    sees [.r0, .r3] []
      (step (before false 0x0100 0x129F [(.r1, 0x0005), (.r2, 0x0003)] false false []))
      = .next [0x0102, 0x0001] true false [] := by
  decide

/-- V-ADD-30: `adi r2, r1, -1`. -/
theorem test_adi_minus_one :
    sees [.r0, .r2] [] (step (before false 0x0100 0x02BF [(.r1, 0x0001)] false false []))
      = .next [0x0102, 0x0000] true true [] := by
  decide

/-- V-ADD-35: `adi r1, r0, 0`. -/
theorem test_adi_reads_pc :
    sees [.r0, .r1] [] (step (before false 0x0100 0x0040 [] false false []))
      = .next [0x0102, 0x0100] false false [] := by
  decide

/-- V-NAND-01: `ndu r3, r1, r2`. -/
theorem test_ndu_keeps_carry :
    sees [.r0, .r3] []
      (step (before false 0x0100 0x2298 [(.r1, 0xF0F0), (.r2, 0xFF00)] true true []))
      = .next [0x0102, 0x0FFF] true false [] := by
  decide

/-- V-NAND-16: `ndu r0, r1, r1`. -/
theorem test_ndu_into_pc :
    sees [.r0] [] (step (before false 0x0100 0x2240 [(.r1, 0xFDFF)] false false []))
      = .next [0x0200] false false [] := by
  decide

/-- V-NAND-05: `ndc r3, r1, r2`. -/
theorem test_ndc_executes :
    sees [.r0, .r3] []
      (step (before false 0x0100 0x229A [(.r1, 0xF0F0), (.r2, 0xFF00), (.r3, 0xAAAA)] true true []))
      = .next [0x0102, 0x0FFF] true false [] := by
  decide

/-- V-NAND-06: `ndc r3, r1, r2`. -/
theorem test_ndc_carry_clear :
    sees [.r0, .r3] []
      (step (before false 0x0100 0x229A [(.r1, 0xF0F0), (.r2, 0xFF00), (.r3, 0xAAAA)] false true
        []))
      = .next [0x0102, 0xAAAA] false true [] := by
  decide

/-- V-NAND-07: `ndz r3, r1, r2`. -/
theorem test_ndz_executes :
    sees [.r0, .r3] []
      (step (before false 0x0100 0x2299 [(.r1, 0xFFFF), (.r2, 0xFFFF), (.r3, 0xAAAA)] false true
        []))
      = .next [0x0102, 0x0000] false true [] := by
  decide

/-- V-NAND-08: `ndz r3, r1, r2`. -/
theorem test_ndz_zero_clear :
    sees [.r0, .r3] []
      (step (before false 0x0100 0x2299 [(.r1, 0xFFFF), (.r2, 0xFFFF), (.r3, 0xAAAA)] true false
        []))
      = .next [0x0102, 0xAAAA] true false [] := by
  decide

/-- V-NAND-09: `ncu r3, r1, r2`. -/
theorem test_ncu_complements_second :
    sees [.r0, .r3] []
      (step (before false 0x0100 0x229C [(.r1, 0xF0F0), (.r2, 0xFF00)] false false []))
      = .next [0x0102, 0xFF0F] false false [] := by
  decide

/-- V-NAND-10: `ncu r3, r1, r2`. -/
theorem test_ncu_zero :
    sees [.r0, .r3] []
      (step (before false 0x0100 0x229C [(.r1, 0xFFFF), (.r2, 0x0000)] false false []))
      = .next [0x0102, 0x0000] false true [] := by
  decide

/-- V-NAND-12: `ncc r3, r1, r2`. -/
theorem test_ncc_executes :
    sees [.r0, .r3] []
      (step (before false 0x0100 0x229E [(.r1, 0xF0F0), (.r2, 0xFF00), (.r3, 0xAAAA)] true false
        []))
      = .next [0x0102, 0xFF0F] true false [] := by
  decide

/-- V-NAND-13: `ncc r3, r1, r2`. -/
theorem test_ncc_carry_clear :
    sees [.r0, .r3] []
      (step (before false 0x0100 0x229E [(.r1, 0xF0F0), (.r2, 0xFF00), (.r3, 0xAAAA)] false false
        []))
      = .next [0x0102, 0xAAAA] false false [] := by
  decide

/-- V-NAND-14: `ncz r3, r1, r2`. -/
theorem test_ncz_executes :
    sees [.r0, .r3] []
      (step (before false 0x0100 0x229D [(.r1, 0xFFFF), (.r2, 0x0000), (.r3, 0xAAAA)] true true []))
      = .next [0x0102, 0x0000] true true [] := by
  decide

/-- V-NAND-15: `ncz r3, r1, r2`. -/
theorem test_ncz_zero_clear :
    sees [.r0, .r3] []
      (step (before false 0x0100 0x229D [(.r1, 0xFFFF), (.r2, 0x0000), (.r3, 0xAAAA)] true false
        []))
      = .next [0x0102, 0xAAAA] true false [] := by
  decide

/-- V-LS-01: `lli r1, 511`. -/
theorem test_lli_not_sign_extended :
    sees [.r0, .r1] [] (step (before false 0x0100 0x33FF [] true true []))
      = .next [0x0102, 0x01FF] true true [] := by
  decide

/-- V-LS-04: `lli r0, 128`. -/
theorem test_lli_into_pc :
    sees [.r0] [] (step (before false 0x0100 0x3080 [] false false []))
      = .next [0x0080] false false [] := by
  decide

/-- V-LS-06: `lw r1, r2, -2`. -/
theorem test_lw_negative_offset_zero_word :
    sees [.r0, .r1] []
      (step (before false 0x0100 0x42BE [(.r2, 0x0200)] true false [(0x01FE, 0x0000)]))
      = .next [0x0102, 0x0000] true true [] := by
  decide

/-- V-LS-09: `lw r2, r2, 0`. -/
theorem test_lw_base_is_destination :
    sees [.r0, .r2] []
      (step (before false 0x0100 0x4480 [(.r2, 0x0200)] false false [(0x0200, 0x0300)]))
      = .next [0x0102, 0x0300] false false [] := by
  decide

/-- V-LS-13: `sw r1, r2, -1`. -/
theorem test_sw_odd_base_odd_offset :
    sees [.r0] [0x0200]
      (step (before false 0x0100 0x52BF [(.r1, 0xCAFE), (.r2, 0x0201)] false false []))
      = .next [0x0102] false false [0xCAFE] := by
  decide

/-- V-LS-15: `sw r0, r2, 0`. -/
theorem test_sw_stores_pc :
    sees [.r0] [0x0200] (step (before false 0x0100 0x5080 [(.r2, 0x0200)] false false []))
      = .next [0x0102] false false [0x0100] := by
  decide

/-- V-LSM-01: `lm r1, 0b11111111`. -/
theorem test_lm_all_eight :
    sees [.r0, .r1, .r2, .r3, .r4, .r5, .r6, .r7] []
      (step (before false 0x0100 0x62FF [(.r1, 0x0200)] false false [(0x0200, 0xA000), (0x0202,
        0xA001), (0x0204, 0xA002), (0x0206, 0xA003), (0x0208, 0xA004), (0x020A, 0xA005), (0x020C,
        0xA006), (0x020E, 0xA007)]))
      = .next [0xA007, 0xA006, 0xA005, 0xA004, 0xA003, 0xA002, 0xA001, 0xA000] false false [] := by
  decide

/-- V-LSM-07: `lm r2, 0b00000011`. -/
theorem test_lm_wraps :
    sees [.r0, .r6, .r7] []
      (step (before false 0x0100 0x6403 [(.r2, 0xFFFE)] false false [(0x0000, 0x2222), (0xFFFE,
        0x1111)]))
      = .next [0x0102, 0x2222, 0x1111] false false [] := by
  decide

/-- V-LSM-11: `sm r1, 0b11111111`. -/
theorem test_sm_all_eight :
    sees [.r0] [0x0200, 0x0202, 0x0204, 0x0206, 0x0208, 0x020A, 0x020C, 0x020E]
      (step (before false 0x0100 0x72FF [(.r1, 0x0200), (.r2, 0x2220), (.r3, 0x3330), (.r4,
        0x4440), (.r5, 0x5550), (.r6, 0x6660), (.r7, 0x7770)] false false []))
      = .next [0x0102] false false [0x7770, 0x6660, 0x5550, 0x4440, 0x3330, 0x2220, 0x0200,
        0x0100] := by
  decide

/-- V-LSM-17: `sm r1, 0b00000001`. -/
theorem test_sm_odd_base :
    sees [] []
      (step (before false 0x0100 0x7201 [(.r1, 0x0203), (.r2, 0x2220), (.r3, 0x3330), (.r4,
        0x4440), (.r5, 0x5550), (.r6, 0x6660), (.r7, 0x7770)] false false [])) = .refused
        .misalignedAccess := by
  decide

/-- V-BR-06: `beq r1, r2, -1`. -/
theorem test_beq_wraps_below_zero :
    sees [.r0] [] (step (before false 0x0000 0x82BF [(.r1, 0x0007), (.r2, 0x0007)] false false []))
      = .next [0xFFFE] false false [] := by
  decide

/-- V-BR-02: `beq r1, r2, 5`. -/
theorem test_beq_not_taken :
    sees [.r0] [] (step (before false 0x0100 0x8285 [(.r1, 0x0007), (.r2, 0x0008)] false false []))
      = .next [0x0102] false false [] := by
  decide

/-- V-BR-12: `blt r1, r2, 5`. -/
theorem test_blt_unsigned :
    sees [.r0] [] (step (before false 0x0100 0x9285 [(.r1, 0xFFFF), (.r2, 0x0001)] false false []))
      = .next [0x0102] false false [] := by
  decide

/-- V-BR-12: `blt r1, r2, 5`. -/
theorem test_blt_signed :
    sees [.r0] [] (step (before true 0x0100 0x9285 [(.r1, 0xFFFF), (.r2, 0x0001)] false false []))
      = .next [0x010A] false false [] := by
  decide

/-- V-BR-19: `ble r1, r2, -4`. -/
theorem test_ble_unsigned :
    sees [.r0] [] (step (before false 0x0100 0xA2BC [(.r1, 0x0001), (.r2, 0xFFFF)] false false []))
      = .next [0x00F8] false false [] := by
  decide

/-- V-BR-19: `ble r1, r2, -4`. -/
theorem test_ble_signed :
    sees [.r0] [] (step (before true 0x0100 0xA2BC [(.r1, 0x0001), (.r2, 0xFFFF)] false false []))
      = .next [0x0102] false false [] := by
  decide

/-- V-J-06: `jal r7, 1`. -/
theorem test_jal_link_and_target_wrap :
    sees [.r0, .r7] [] (step (before false 0xFFFE 0xCE01 [] false false []))
      = .next [0x0000, 0x0000] false false [] := by
  decide

/-- V-J-07: `jal r0, 4`. -/
theorem test_jal_link_r0 :
    sees [] [] (step (before false 0x0100 0xC004 [] false false [])) = .refused .doublePcWrite := by
  decide

/-- V-J-09: `jlr r7, r7`. -/
theorem test_jlr_target_read_first :
    sees [.r0, .r7] [] (step (before false 0x0100 0xDFC0 [(.r7, 0x0300)] false false []))
      = .next [0x0300, 0x0102] false false [] := by
  decide

/-- V-J-12: `jlr r0, r7`. -/
theorem test_jlr_link_r0 :
    sees [] []
      (step (before false 0x0100 0xD1C0 [(.r7, 0x0300)] false false [])) = .refused
        .doublePcWrite := by
  decide

/-- V-J-15: `jri r1, -256`. -/
theorem test_jri_farthest_backward :
    sees [.r0] [] (step (before false 0x0100 0xF300 [(.r1, 0x0300)] false false []))
      = .next [0x0100] false false [] := by
  decide

/-- V-J-17: `jri r0, 2`. -/
theorem test_jri_pc_relative :
    sees [.r0] [] (step (before false 0x0100 0xF002 [] false false []))
      = .next [0x0104] false false [] := by
  decide


/-! ### A later fetch, and the end of a run -/

/-- V-ADD-36: `adi r0, r0, 3` leaves an odd PC, from which the next step is refused. -/
theorem test_odd_pc_then_refused :
    sees [] [] (core.run 2 (before false 0x0100 0x0003 [] false false []))
      = .refused .misalignedFetch := by
  decide

/-- The same word of memory in either byte order (R43). -/
theorem test_byte_orders :
    (State.reset.placeWord 0x0100#16 0x1234#16).mem = [(0x100, 0x34#8), (0x101, 0x12#8)]
      ∧ ({ State.reset with cfg := { resetConfig with byteOrder := .big } }.placeWord
          0x0100#16 0x1234#16).mem = [(0x100, 0x12#8), (0x101, 0x34#8)] := by
  decide

/-! ### States and operands that meet the hypotheses of the statements

Each `witness_<Name>` meets, together, the hypotheses of `Obligations.<Name>`, one theorem for each
clause that has hypotheses of its own. -/

/-- A state at 0x0100 with r1 to r3 and the flags chosen, an ADA at the PC and two data words. -/
def sample (c z : Bool) : State :=
  before false 0x0100 0x1298 [(.r1, 0x0200), (.r2, 0x0203), (.r3, 0xAAAA)] c z
    [(0x0200, 0xBEEF), (0xFFFE, 0x0000)]

/-- The same machine with memory up to 0x03FE only, at the last word. -/
def small (pc : Word) : State :=
  { sample true true with
      pc := pc, r4 := 0x0400, cfg := { resetConfig with memMap := [⟨0x0000#16, 0x03FE#16⟩] } }

theorem witness_EncodingIsTheIntegerFormula :
    let (ra, rb, rc, imm6, imm9, mask8) := (Reg.r7, Reg.r0, Reg.r7, 63#6, 511#9, 255#8)
    (Instr.acw .r7 .r0 .r7, 1, 1, 3) ∈
      [(Instr.acz ra rb rc, 1, 1, 1), (Instr.acw ra rb rc, 1, 1, 3), (Instr.ndu ra rb rc, 2, 0, 0)]
    ∧ (Instr.adi .r7 .r0 63#6, 0) ∈ [(Instr.adi ra rb imm6, 0), (Instr.lw ra rb imm6, 4)]
    ∧ (Instr.jri .r7 511#9, 15) ∈ [(Instr.jal ra imm9, 12), (Instr.jri ra imm9, 15)]
    ∧ (Instr.sm .r7 255#8, 7) ∈ [(Instr.lm ra mask8, 6), (Instr.sm ra mask8, 7)] := by
  decide

theorem witness_DecodeAndEncodeAreInverse :
    decode 0xFFFF#16 = .ok (.jri .r7 511#9) ∧ encode (.jri .r7 511#9) = 0xFFFF#16
      ∧ decodeBytes .big [0x12#8, 0x98#8, 0xFF#8] = .ok (.ada .r1 .r2 .r3, [0xFF#8])
      ∧ [0x12#8, 0x98#8, 0xFF#8] = encodeBytes .big (.ada .r1 .r2 .r3) ++ [0xFF#8] := by
  decide

theorem witness_OpcodeRowsSelectTheInstruction :
    decode 0xDFC0#16 = .ok (.jlr .r7 .r7)
      ∧ 0xDFC0#16 &&& (Instr.jlr .r7 .r7).row.mask = (Instr.jlr .r7 .r7).row.value
      ∧ 0xDFC0#16 &&& (Instr.jlr .r0 .r1).row.mask = (Instr.jlr .r0 .r1).row.value := by
  decide

/-- A reserved word of each row of R72's table. -/
theorem witness_ReservedWordsAreRejectedAndRefused_words :
    reservedWord 0xBFFF#16 ∧ reservedWord 0xE000#16 ∧ reservedWord 0x2FFF#16
      ∧ reservedWord 0xD03F#16 ∧ reservedWord 0x7FFF#16 := by
  unfold reservedWord
  decide

theorem witness_ReservedWordsAreRejectedAndRefused_step :
    (before true 0xFFFE 0xB000 [] false false []).pc.toNat % 2 = 0
      ∧ (before true 0xFFFE 0xB000 [] false false []).cfg.mapped 0xFFFE = true
      ∧ (before true 0xFFFE 0xB000 [] false false []).mem.read? 0xFFFE = some 0x00#8
      ∧ (before true 0xFFFE 0xB000 [] false false []).mem.read? 0xFFFF = some 0xB0#8
      ∧ reservedWord (joinWord .little 0x00#8 0xB0#8) := by
  unfold reservedWord
  decide

theorem witness_StepRunsTheDecodedInstruction :
    (sample true true).pc.toNat % 2 = 0 ∧ (sample true true).cfg.mapped (sample true true).pc = true
      ∧ (sample true true).mem.read? (sample true true).pc.toNat = some 0x98#8
      ∧ (sample true true).mem.read? ((sample true true).pc.toNat + 1) = some 0x12#8
      ∧ decode (joinWord (sample true true).cfg.byteOrder 0x98#8 0x12#8) = .ok (.ada .r1 .r2 .r3) := by
  decide

theorem witness_PlacedWordIsTheNextInstruction :
    State.reset.pc.toNat % 2 = 0 ∧ State.reset.cfg.mapped State.reset.pc = true
      ∧ decode 0x33FF#16 = .ok (.lli .r1 511#9) := by
  decide

theorem witness_FetchRefusesInOrder_odd : (small 0x0401#16).pc.toNat % 2 = 1 := by decide

theorem witness_FetchRefusesInOrder_unmapped :
    (small 0x0400#16).pc.toNat % 2 = 0 ∧ (small 0x0400#16).cfg.mapped 0x0400#16 = false := by
  decide

theorem witness_FetchRefusesInOrder_unwritten :
    (small 0x03FE#16).pc.toNat % 2 = 0 ∧ (small 0x03FE#16).cfg.mapped 0x03FE#16 = true
      ∧ wordWritten (small 0x03FE#16) 0x03FE#16 = false := by
  decide

/-- A step refused for each reason. -/
theorem witness_StepStopsOnlyAsListed :
    sees [] [] (step (small 0x0101#16)) = .refused .misalignedFetch
      ∧ sees [] [] (step (small 0x0400#16)) = .refused .unmappedAccess
      ∧ sees [] [] (step (small 0x03FE#16)) = .refused .unwrittenRead
      ∧ sees [] [] (step ((small 0x0100#16).placeWord 0x0100#16 0xE000#16)) = .refused .reservedEncoding
      ∧ sees [] [] (step ((small 0x0100#16).placeWord 0x0100#16 0xC004#16)) = .refused .doublePcWrite
      ∧ sees [] [] (step ((small 0x0100#16).placeWord 0x0100#16 0x4280#16)) = .refused .misalignedAccess
      ∧ sees [] [] (step ((small 0x0100#16).placeWord 0x0100#16 0x5300#16)) = .refused .unmappedAccess := by
  decide

theorem witness_OddTargetIsKeptThenRefused_parity :
    (∃ t, exec (.beq .r1 .r1 33#6) (sample true true) = .next t)
      ∧ .r0 ∉ destinations (.beq .r1 .r1 33#6)
      ∧ (∀ ra rb : Reg, Instr.beq .r1 .r1 33#6 ≠ .jlr ra rb)
      ∧ ∀ (ra : Reg) (imm9 : BitVec 9), Instr.beq .r1 .r1 33#6 ≠ .jri ra imm9 :=
  ⟨next_of_any (by decide), by decide, by simp, by simp⟩

/-- The four ways to an odd PC. -/
theorem witness_OddTargetIsKeptThenRefused_odd :
    (Reg.r6 ≠ .r0 ∧ ((sample true true).readReg .r2).toNat % 2 = 1)
      ∧ ((sample true true).readReg .r2).toNat % 2 = 1
      ∧ (((sample true true).readReg .r0).toNat + (3#6).toNat) % 2 = 1
      ∧ (511#9).toNat % 2 = 1 := by
  decide

theorem witness_OddTargetIsKeptThenRefused_refused :
    ∃ t, exec (.jri .r2 0#9) (sample true true) = .next t ∧ t.pc.toNat % 2 = 1 := by
  obtain ⟨t, ht, hp⟩ := next_of_nextHas (o := exec (.jri .r2 0#9) (sample true true))
    (p := fun t => t.pc.toNat % 2 == 1) (by decide)
  exact ⟨t, ht, eq_of_beq hp⟩

theorem witness_StepKeepsTheInvariant :
    StateInv (sample true true) ∧ ∃ t, step (sample true true) = .next t :=
  ⟨by decide, next_of_any (by decide)⟩

theorem witness_HostLoadKeepsTheInvariant :
    StateInv State.reset
      ∧ ∀ p ∈ [(0x0000#16, 0x3205#16), (0xFFFE#16, 0xB000#16)], p.1.toNat % 2 = 0 :=
  ⟨by decide, by simp⟩

theorem witness_CanonicalMemoriesAreDeterminedByTheirBytes :
    Memory.wf [(0, 0x01#8), (0xFFFF, 0x00#8)]
      ∧ ∀ a : Nat, Memory.read? [(0, 0x01#8), (0xFFFF, 0x00#8)] a
          = Memory.read? [(0, 0x01#8), (0xFFFF, 0x00#8)] a :=
  ⟨by decide, fun _ => rfl⟩

theorem witness_StepKeepsTheParameters : ∃ t, step (sample true true) = .next t :=
  next_of_any (by decide)

theorem witness_FlagsAreWrittenAsTabled :
    (∃ t, exec (.acw .r1 .r2 .r3) (sample true true) = .next t)
      ∧ ∃ t, exec (.ndc .r1 .r2 .r3) (sample false true) = .next t :=
  ⟨next_of_any (by decide), next_of_any (by decide)⟩

/-- A reader and a conditioned instruction for each flag, and the two carry inputs. -/
theorem witness_FlagsAreReadAsTabled :
    readsCarry (.ble .r1 .r2 5#6) = false ∧ readsZero (.adc .r1 .r2 .r3) = false
      ∧ (sample false true).c = false ∧ (sample true false).z = false
      ∧ Instr.ncc .r1 .r2 .r0 ∈ [Instr.adc .r1 .r2 .r0, Instr.acc .r1 .r2 .r0,
          Instr.ndc .r1 .r2 .r0, Instr.ncc .r1 .r2 .r0]
      ∧ Instr.adz .r1 .r2 .r0 ∈ [Instr.adz .r1 .r2 .r0, Instr.acz .r1 .r2 .r0,
          Instr.ndz .r1 .r2 .r0, Instr.ncz .r1 .r2 .r0] := by
  decide

theorem witness_FlagsAreReadAsTabled_carryInput :
    (∃ t, exec (.awc .r1 .r2 .r0) (sample true true) = .next t)
      ∧ ∃ t, exec (.acw .r1 .r2 .r0) (sample true true) = .next t :=
  ⟨next_of_any (by decide), next_of_any (by decide)⟩

theorem witness_OnlyLoadsAndStoresTouchMemory :
    touchesMemory (.jri .r1 0#9) = false ∧ ¬ isStore (.lm .r1 3#8)
      ∧ ∃ t, exec (.lm .r1 0#8) (sample true true) = .next t :=
  ⟨rfl, by simp [isStore], next_of_any (by decide)⟩

theorem witness_RegistersChangeOnlyAsDestinations :
    ∃ t, exec (.ada .r1 .r2 .r3) (sample true true) = .next t :=
  next_of_any (by decide)

theorem witness_OtherInstructionsGoOnAtTheNextWord :
    branchesOrJumps (.ada .r1 .r2 .r3) = false ∧ .r0 ∉ destinations (.ada .r1 .r2 .r3)
      ∧ ∃ t, exec (.ada .r1 .r2 .r3) (blank true 0xFFFE#16 true true) = .next t :=
  ⟨rfl, by decide, next_of_any (by decide)⟩

theorem witness_RegistersAreEightSeparateCells : Reg.r0 ≠ Reg.r7 := by decide

/-- Two machines of opposite byte order with the same word, stored in opposite bytes. -/
theorem witness_ByteOrderIsUnobservable :
    SameWords (State.reset.placeWord 0x0000#16 0x3205#16)
      ({ State.reset with cfg := { resetConfig with byteOrder := .big } }.placeWord
        0x0000#16 0x3205#16) :=
  sameWords_placeWord (sameWords_of_empty .big rfl) (by decide)

theorem witness_WordIsItsTwoBytesInOrder :
    State.reset.cfg.byteOrder = .little
      ∧ ({ State.reset with cfg := { resetConfig with byteOrder := .big } } : State).cfg.byteOrder
          = .big := by
  decide

/-- ACW and ACC executing and ADZ with Z = 0, all into R0. -/
theorem witness_AddGroupResultFlagsAndFrame :
    let s := sample true false
    let (ra, rb, rc) := (Reg.r1, Reg.r2, Reg.r0)
    let forms : List (Instr × Bool × Nat × Nat) :=
      [(Instr.ada ra rb rc, true, (s.readReg rb).toNat, 0),
       (Instr.adc ra rb rc, s.c, (s.readReg rb).toNat, 0),
       (Instr.adz ra rb rc, s.z, (s.readReg rb).toNat, 0),
       (Instr.awc ra rb rc, true, (s.readReg rb).toNat, if s.c then 1 else 0),
       (Instr.aca ra rb rc, true, 65535 - (s.readReg rb).toNat, 0),
       (Instr.acc ra rb rc, s.c, 65535 - (s.readReg rb).toNat, 0),
       (Instr.acz ra rb rc, s.z, 65535 - (s.readReg rb).toNat, 0),
       (Instr.acw ra rb rc, true, 65535 - (s.readReg rb).toNat, if s.c then 1 else 0)]
    (Instr.acw .r1 .r2 .r0, true, 65020, 1) ∈ forms
      ∧ (Instr.acc .r1 .r2 .r0, true, 65020, 0) ∈ forms
      ∧ (Instr.adz .r1 .r2 .r0, false, 515, 0) ∈ forms := by
  decide

theorem witness_AddImmediateResultFlagsAndFrame :
    (0x0200 + 65535 : Nat) = ((sample true true).readReg .r1).toNat
        + (if (63#6).toNat < 32 then (63#6).toNat else (63#6).toNat + 65472)
      ∧ (0x0200 + 31 : Nat) = ((sample true true).readReg .r1).toNat
        + (if (31#6).toNat < 32 then (31#6).toNat else (31#6).toNat + 65472) := by
  decide

theorem witness_ComplementAddWithCarrySubtracts :
    (sample true true).c = true ∧ (sample false true).c = false := by decide

theorem witness_CarryChainsAddThirtyTwoBits :
    Reg.r5 ≠ .r0 ∧ Reg.r2 ≠ .r0 ∧ Reg.r4 ≠ .r0 ∧ Reg.r5 ≠ .r2 ∧ Reg.r5 ≠ .r4 ∧ Reg.r6 ≠ .r5 := by decide

theorem witness_CarryChainsSubtractThirtyTwoBits :
    (sample true true).c = true ∧ Reg.r5 ≠ .r0 ∧ Reg.r2 ≠ .r0 ∧ Reg.r4 ≠ .r0 ∧ Reg.r5 ≠ .r2
      ∧ Reg.r5 ≠ .r4 ∧ Reg.r0 ≠ .r5 := by
  decide

/-- NDC executing and NCZ with Z = 0. -/
theorem witness_NandGroupResultFlagsAndFrame :
    let s := sample true false
    let (ra, rb, rc) := (Reg.r1, Reg.r2, Reg.r0)
    let forms : List (Instr × Bool × Bool) :=
      [(Instr.ndu ra rb rc, true, false), (Instr.ndc ra rb rc, s.c, false),
       (Instr.ndz ra rb rc, s.z, false), (Instr.ncu ra rb rc, true, true),
       (Instr.ncc ra rb rc, s.c, true), (Instr.ncz ra rb rc, s.z, true)]
    (Instr.ndc .r1 .r2 .r0, true, false) ∈ forms ∧ (Instr.ncz .r1 .r2 .r0, false, true) ∈ forms := by
  decide

/-- The highest word, reached from an even and from an odd base. -/
theorem witness_LoadWordResultFlagsAndFrame :
    0xFFFE#16 = BitVec.ofInt 16 (((sample true true).readReg .r5).toNat + (62#6).toInt)
      ∧ Accessible (sample true true) 0xFFFE#16
      ∧ 0x0200#16 = BitVec.ofInt 16 (((sample true true).readReg .r2).toNat + (61#6).toInt)
      ∧ Accessible (sample true true) 0x0200#16 := by
  unfold Accessible
  decide

theorem witness_StoreWordResultAndFrame :
    0x0200#16 = effectiveAddress ((sample true true).readReg .r2) 61#6
      ∧ Accessible (sample true true) 0x0200#16 := by
  unfold Accessible
  decide

theorem witness_LoadAndStoreRefuseBadAddresses_odd :
    let s := small 0x0100#16
    0x0203#16 = effectiveAddress (s.readReg .r2) 0#6
      ∧ Instr.sw .r1 .r2 0#6 ∈ [Instr.lw .r1 .r2 0#6, Instr.sw .r1 .r2 0#6]
      ∧ (0x0203#16).toNat % 2 = 1 := by
  decide

theorem witness_LoadAndStoreRefuseBadAddresses_unmapped :
    let s := small 0x0100#16
    0x0400#16 = effectiveAddress (s.readReg .r4) 0#6
      ∧ Instr.lw .r1 .r4 0#6 ∈ [Instr.lw .r1 .r4 0#6, Instr.sw .r1 .r4 0#6]
      ∧ (0x0400#16).toNat % 2 = 0 ∧ s.cfg.mapped 0x0400#16 = false := by
  decide

theorem witness_LoadAfterStoreReturnsTheWord :
    ∃ t, exec (.sw .r3 .r1 0#6) (sample true true) = .next t
      ∧ effectiveAddress (t.readReg .r2) 61#6
          = effectiveAddress ((sample true true).readReg .r1) 0#6 := by
  obtain ⟨t, ht, hp⟩ := next_of_nextHas (o := exec (.sw .r3 .r1 0#6) (sample true true))
    (p := fun t => effectiveAddress (t.readReg .r2) 61#6
      == effectiveAddress ((sample true true).readReg .r1) 0#6) (by decide)
  exact ⟨t, ht, eq_of_beq hp⟩

theorem witness_StoringTwiceIsStoringOnce :
    (sample true true).mem.wf ∧ ∃ t, exec (.sw .r3 .r1 0#6) (sample true true) = .next t :=
  ⟨by decide, next_of_any (by decide)⟩

/-- A store of an ADA's word to the address that follows the store. -/
theorem witness_StoreIsSeenByTheNextFetch_sw :
    (∃ t, exec (.sw .r3 .r0 2#6) ((sample true true).writeReg .r3 0x1298#16) = .next t
      ∧ 0x0102#16 = t.pc)
      ∧ effectiveAddress (((sample true true).writeReg .r3 0x1298#16).readReg .r0) 2#6 = 0x0102#16
      ∧ decode (((sample true true).writeReg .r3 0x1298#16).readReg .r3) = .ok (.ada .r1 .r2 .r3) := by
  obtain ⟨t, ht, hp⟩ := next_of_nextHas
    (o := exec (.sw .r3 .r0 2#6) ((sample true true).writeReg .r3 0x1298#16))
    (p := fun t => 0x0102#16 == t.pc) (by decide)
  exact ⟨⟨t, ht, eq_of_beq hp⟩, by decide, by decide⟩

/-- An SM of R7 and R3 from 0x0100 on, the ADA's word in R3 going to 0x0102, the address after the SM. -/
theorem witness_StoreIsSeenByTheNextFetch_sm :
    let s := ((sample true true).writeReg .r3 0x1298#16).writeReg .r1 0x0100#16
    (∃ t, exec (.sm .r1 0x11#8) s = .next t ∧ 0x0102#16 = t.pc)
      ∧ (transferOrder 0x11#8)[1]? = some .r3
      ∧ sequenceAddress (s.readReg .r1) 1 = 0x0102#16
      ∧ decode (s.readReg .r3) = .ok (.ada .r1 .r2 .r3) := by
  intro s
  obtain ⟨t, ht, hp⟩ := next_of_nextHas (o := exec (.sm .r1 0x11#8) s)
    (p := fun t => 0x0102#16 == t.pc) (by decide)
  exact ⟨⟨t, ht, eq_of_beq hp⟩, by decide, by decide, by decide⟩

/-- `sw r3, r1, 0` at 0x0100, of the word that the address 0x0200 already holds. -/
def storing : State :=
  before false 0x0100 0x5640 [(.r1, 0x0200), (.r3, 0xBEEF)] false false [(0x0200, 0xBEEF)]

/-- `sm r1, 10000001` at 0x0100, R7 to 0xFFFE and R0, the PC, to 0x0000. -/
def storingTwo : State := before false 0x0100 0x7281 [(.r1, 0xFFFE)] false false []

/-- The record a cautious step leaves, where it has a next state. -/
def recorded (stored : List Word) (s : State) : Option (List Word) :=
  match cautiousStep stored s with
  | .next p => some p.1
  | .refused _ => none
  | .fault _ => none

theorem next_of_recorded {stored l : List Word} {s : State} (h : recorded stored s = some l) :
    ∃ t, cautiousStep stored s = .next (l, t) := by
  simp only [recorded] at h
  split at h
  · rename_i p hp
    cases h
    exact ⟨p.2, hp⟩
  · cases h
  · cases h

/-- An SW that changes no byte and an SM are recorded beside the run's earlier store. -/
theorem witness_CautiousStepAgreesOrRefuses_records :
    (∃ t, cautiousStep [0x0300#16] storing = .next ([0x0200#16, 0x0300#16], t))
      ∧ ∃ t, cautiousStep [0x0300#16] storingTwo
          = .next ([0xFFFE#16, 0x0000#16, 0x0300#16], t) :=
  ⟨next_of_recorded (by decide), next_of_recorded (by decide)⟩

theorem witness_CautiousStepAgreesOrRefuses_goesOn :
    storing.pc ∉ [0x0300#16] ∧ ∃ t, step storing = .next t :=
  ⟨by decide, next_of_any (by decide)⟩

/-- An odd PC, and a PC that holds a reserved word. -/
theorem witness_CautiousStepAgreesOrRefuses_refusesAsTheStep :
    (small 0x0101#16).pc ∉ [0x0300#16]
      ∧ sees [] [] (step (small 0x0101#16)) = .refused .misalignedFetch
      ∧ ((small 0x0100#16).placeWord 0x0100#16 0xE000#16).pc ∉ [0x0300#16]
      ∧ sees [] [] (step ((small 0x0100#16).placeWord 0x0100#16 0xE000#16))
          = .refused .reservedEncoding := by
  decide

/-- A run that comes back to the word it stored. -/
theorem witness_CautiousStepAgreesOrRefuses_refusesStored :
    storing.pc ∈ [0x0300#16, 0x0100#16] ∧ Accessible storing storing.pc
      ∧ wordWritten storing storing.pc = true := by
  unfold Accessible
  decide

theorem test_stored_words :
    storedBy (.sw .r3 .r1 0#6) storing = [0x0200#16]
      ∧ storedBy (.sm .r1 0x81#8) storingTwo = [0xFFFE#16, 0x0000#16] := by
  decide

/-- The bytes just below the word an SW stores, and just above the last word an SM stores. -/
theorem witness_StoredWordsAreThoseOfSwAndSm :
    ¬ isStore (.lm .r1 3#8) ∧ (∃ t, exec (.sw .r3 .r1 0#6) storing = .next t)
      ∧ (∀ w ∈ storedBy (.sw .r3 .r1 0#6) storing, 0x01FF ≠ w.toNat ∧ 0x01FF ≠ w.toNat + 1)
      ∧ (∃ t, exec (.sm .r1 0x81#8) storingTwo = .next t)
      ∧ ∀ w ∈ storedBy (.sm .r1 0x81#8) storingTwo, 2 ≠ w.toNat ∧ 2 ≠ w.toNat + 1 :=
  ⟨by simp [isStore], next_of_any (by decide), by simp [test_stored_words.1],
    next_of_any (by decide), by simp [test_stored_words.2]⟩

/-- A row of each list of mnemonics, and a line of each spelling of JAL. -/
theorem witness_AssemblyLinesStandForTheirInstruction :
    let (ra, rb, rc, imm6) := (Reg.r1, Reg.r2, Reg.r3, 63#6)
    (Instr.ncz .r1 .r2 .r3, "ncz") ∈ [(Instr.ada ra rb rc, "ada"), (Instr.ncz ra rb rc, "ncz")]
      ∧ (Instr.ble .r1 .r2 63#6, "ble") ∈ [(Instr.lw ra rb imm6, "lw"), (Instr.ble ra rb imm6, "ble")]
      ∧ assemble ⟨"jal", [.reg .r1, .imm (-256)]⟩ = some (.jal .r1 256#9)
      ∧ assemble ⟨"jalr", [.reg .r1, .imm (-256)]⟩ = some (.jal .r1 256#9) := by
  decide

/-- All eight registers from the highest word on, wrapping to address 0. -/
theorem witness_LoadMultipleResultAndFrame :
    ∀ k : Nat, k < (transferOrder 0xFF#8).length →
      Accessible ((sample true true).writeReg .r1 0xFFFE#16)
        (sequenceAddress (((sample true true).writeReg .r1 0xFFFE#16).readReg .r1) k) := by
  unfold Accessible
  decide

theorem witness_StoreMultipleResultAndFrame :
    (∀ k : Nat, k < (transferOrder 0x81#8).length →
      Accessible (small 0x0100#16) (sequenceAddress ((small 0x0100#16).readReg .r1) k))
    ∧ ∀ k : Nat, k < (transferOrder 0x00#8).length →
      Accessible (small 0x0100#16) (sequenceAddress ((small 0x0100#16).readReg .r2) k) := by
  unfold Accessible
  decide

theorem witness_MultipleTransfersRefuseAsAWhole_odd :
    Instr.lm .r2 0x01#8 ∈ [Instr.lm .r2 0x01#8, Instr.sm .r2 0x01#8]
      ∧ ((small 0x0100#16).readReg .r2).toNat % 2 = 1 ∧ 0x01#8 ≠ 0#8 := by
  decide

/-- An even base, the last word of memory, whose second address is past the end. -/
theorem witness_MultipleTransfersRefuseAsAWhole_unmapped :
    let s := (small 0x0100#16).writeReg .r1 0x03FE#16
    Instr.sm .r1 0x03#8 ∈ [Instr.lm .r1 0x03#8, Instr.sm .r1 0x03#8]
      ∧ (s.readReg .r1).toNat % 2 = 0
      ∧ 1 < (transferOrder 0x03#8).length
      ∧ s.cfg.mapped (sequenceAddress (s.readReg .r1) 1) = false := by
  decide

/-- SM and LM of all eight registers through one base. -/
theorem witness_LoadMultipleRestoresWhatStoreMultipleSaved :
    ∃ t, exec (.sm .r1 0xFF#8) (sample true true) = .next t ∧ t.mem = t.mem ∧ t.cfg = t.cfg
      ∧ t.readReg .r1 = (sample true true).readReg .r1 := by
  obtain ⟨t, ht, hp⟩ := next_of_nextHas (o := exec (.sm .r1 0xFF#8) (sample true true))
    (p := fun t => t.readReg .r1 == (sample true true).readReg .r1) (by decide)
  exact ⟨t, ht, rfl, rfl, eq_of_beq hp⟩

/-- 0x8000 is less than 0x7FFF exactly where CMP_SIGNED is true (V-BR-14). -/
theorem witness_BranchTargetConditionAndFrame (signed : Bool) :
    let s := before signed 0x0100 0x9285 [(.r1, 0x8000), (.r2, 0x7FFF)] true false []
    let (ra, rb, imm6) := (Reg.r1, Reg.r2, 5#6)
    (Instr.blt .r1 .r2 5#6, signed) ∈
      [(Instr.beq ra rb imm6, decide ((s.readReg ra).toNat = (s.readReg rb).toNat)),
       (Instr.blt ra rb imm6,
        if s.cfg.cmpSigned then decide ((s.readReg ra).toInt < (s.readReg rb).toInt)
        else decide ((s.readReg ra).toNat < (s.readReg rb).toNat)),
       (Instr.ble ra rb imm6,
        if s.cfg.cmpSigned then decide ((s.readReg ra).toInt ≤ (s.readReg rb).toInt)
        else decide ((s.readReg ra).toNat ≤ (s.readReg rb).toNat))] := by
  cases signed <;> decide

theorem witness_JumpAndLinkResultAndFrame : Reg.r7 ≠ Reg.r0 := by decide

theorem witness_JumpAndLinkToRegisterResultAndFrame : Reg.r7 ≠ Reg.r0 := by decide

/-- A JAL returned from by JLR, and a JLR through its own link register returned from by JRI, the
state of the return being the one that the call leaves. -/
theorem witness_ReturnGoesToTheInstructionAfterTheCall :
    (Instr.jal .r7 256#9 ∈ [Instr.jal .r7 256#9, Instr.jlr .r7 .r7]
      ∧ (∃ t, exec (.jal .r7 256#9) (sample true true) = .next t)
      ∧ Reg.r6 ≠ .r0 ∧ Instr.jlr .r6 .r7 ∈ [Instr.jri .r7 0#9, Instr.jlr .r6 .r7])
    ∧ Instr.jlr .r7 .r7 ∈ [Instr.jal .r7 256#9, Instr.jlr .r7 .r7]
      ∧ (∃ t, exec (.jlr .r7 .r7) (sample true true) = .next t)
      ∧ Instr.jri .r7 0#9 ∈ [Instr.jri .r7 0#9, Instr.jlr .r6 .r7] :=
  ⟨⟨by decide, next_of_any (by decide), by decide, by decide⟩, by decide, next_of_any (by decide),
    by decide⟩

theorem witness_ResetStartsAtResetPc :
    (0xFFFE#16).toNat % 2 = 0 ∧ resetConfig.mapped 0xFFFE#16 = true
      ∧ decode 0x3205#16 = .ok (.lli .r1 5#9) := by
  decide

theorem witness_SelfJumpsChangeNothing : Reg.r5 ≠ Reg.r0 := by decide

/-- A run of one step that arrives at HALT_PC, and a run from HALT_PC itself. -/
theorem witness_RunEndsAtFirstArrivalAtHaltPc_ended :
    (∃ t, runToHalt 3 { sample true true with cfg := { resetConfig with haltPc := some 0x0102#16 } }
        = .ended t)
      ∧ ∃ t, runToHalt 0 { sample true true with cfg := { resetConfig with haltPc := some 0x0100#16 } }
        = .ended t :=
  ⟨ended_of (by decide), ended_of (by decide)⟩

theorem witness_RunEndsAtFirstArrivalAtHaltPc_arrives :
    ∃ t, core.run 1 { sample true true with cfg := { resetConfig with haltPc := some 0x0102#16 } }
        = .next t ∧ t.cfg.haltPc = some t.pc := by
  obtain ⟨t, ht, hp⟩ := next_of_nextHas
    (o := step { sample true true with cfg := { resetConfig with haltPc := some 0x0102#16 } })
    (p := fun t => t.cfg.haltPc == some t.pc) (by decide)
  exact ⟨t, core_run_succ 0 ht, eq_of_beq hp⟩

theorem witness_RunEndsAtFirstArrivalAtHaltPc_none : (sample true true).cfg.haltPc = none := by decide

end Sys2Proof.Tests
end

/-! SUPPORT. The parameters of the machine (00_scope.md R6) along an instruction and a step. -/

namespace Sys2Proof.Machine

/-- None of the ways an instruction changes the state reaches the parameters (R6). -/
theorem Effect.cfg_eq {i : Instr} {s t : State} (h : Effect s i t) : t.cfg = s.cfg := by
  cases h with
  | sum rd tt => exact writeSum_cfg s rd tt
  | zeroTested rd v => exact writeZeroTested_cfg s rd v
  | advance => exact State.advance_cfg s
  | lli => rw [State.writeReg_cfg, State.advance_cfg]
  | sw => rw [State.setMem_cfg, State.advance_cfg]
  | lm hl =>
    obtain ⟨-, -, -, -, hcfg⟩ := loadRegs_frame hl
    rw [hcfg, State.advance_cfg]
  | sm hs =>
    obtain ⟨hmem, -⟩ := storeRegs_frame hs
    rw [hmem, State.setMem_cfg, State.advance_cfg]
  | go v => exact State.setPc_cfg s v
  | link => rw [State.setPc_cfg, State.writeReg_cfg]

/-- Settles O17: a step with a next state is an instruction's effect, and no effect reaches the
parameters. -/
theorem stepKeepsTheParameters : Obligations.StepKeepsTheParameters := by
  unfold Obligations.StepKeepsTheParameters
  intro s t h
  obtain ⟨i, -, hexec⟩ := step_next_iff.1 h
  exact (exec_effect hexec).cfg_eq

end Sys2Proof.Machine

/-! SUPPORT. The step as the fetched instruction's meaning: what it runs, what it refuses before any
instruction runs, and the first step after reset (10_state.md R23, R25, R32). -/

namespace Sys2Proof.Machine

open Sys2Proof.Safety

theorem step_of_fetch_ok {s : State} {i : Instr} (h : s.fetch = .ok i) : step s = exec i s := by
  simp only [step, h]

theorem step_of_fetch_error {s : State} {r : Refusal} (h : s.fetch = .error r) :
    step s = .refused r := by
  simp only [step, h]

/-- An odd PC is refused before anything else is looked at (R25). -/
theorem step_of_odd_pc {s : State} (h : s.pc.toNat % 2 = 1) : step s = .refused .misalignedFetch :=
  step_of_fetch_error (by rw [State.fetch_eq, if_pos h])

/-- A word placed at an even, mapped PC is the one the next step runs (R23, R243). -/
theorem step_placeWord_pc {s : State} {w : Word} {i : Instr} (ha : Accessible s s.pc)
    (hd : decode w = .ok i) : step (s.placeWord s.pc w) = exec i (s.placeWord s.pc w) := by
  have hmem : (s.placeWord s.pc w).mem = Memory.writeWord s.cfg.byteOrder s.mem s.pc w := rfl
  have hword : (s.placeWord s.pc w).wordAt s.pc = w := State.wordAt_of_writeWord hmem
  have hwritten : wordWritten (s.placeWord s.pc w) s.pc = true := by
    simp [wordWritten, hmem, Memory.read?_writeWord]
  exact step_of_fetch_ok (State.fetch_ok_iff.2 ⟨ha, hwritten, hword.symm ▸ hd⟩)

/-- Settles O7: the four conditions are those under which the fetch answers `i`. -/
theorem stepRunsTheDecodedInstruction : Obligations.StepRunsTheDecodedInstruction := by
  unfold Obligations.StepRunsTheDecodedInstruction
  intro s lower upper i heven hmapped hlower hupper hdecode
  have hwritten : wordWritten s s.pc = true := by simp [wordWritten, hlower, hupper]
  have hword := State.wordAt_of_bytes hlower hupper
  exact step_of_fetch_ok (State.fetch_ok_iff.2 ⟨⟨heven, hmapped⟩, hwritten, hword ▸ hdecode⟩)

/-- Settles O9: the three refusals are the first three tests of a fetch, in their order. -/
theorem fetchRefusesInOrder : Obligations.FetchRefusesInOrder := by
  unfold Obligations.FetchRefusesInOrder
  intro s
  refine ⟨step_of_odd_pc, fun heven hmapped => ?_, fun heven hmapped hwritten => ?_⟩
  · exact step_of_fetch_error (by simp [State.fetch_eq, heven, hmapped])
  · exact step_of_fetch_error (by simp [State.fetch_eq, heven, hmapped, hwritten])

/-- Settles O55: `resetOf` puts RESET_PC into the PC, and a word placed at the PC runs next. -/
theorem resetStartsAtResetPc : Obligations.ResetStartsAtResetPc := by
  unfold Obligations.ResetStartsAtResetPc
  rintro cfg x1 x2 x3 x4 x5 x6 x7 c z mem w i s rfl
  exact ⟨rfl, rfl, rfl, fun heven hmapped hdecode => step_placeWord_pc ⟨heven, hmapped⟩ hdecode⟩

end Sys2Proof.Machine

/-! SUPPORT. The canonical form of memory (10_state.md R30): at reset, and that it leaves no choice
of how a content is listed. -/

namespace Sys2Proof.Machine

open Sys2Proof.Safety

/-- In the canonical form the listed cells are exactly the bytes that read back. -/
theorem Memory.mem_iff_read? {m : Memory} (hm : m.wf) (x : Host.Cell) :
    x ∈ m ↔ m.read? x.1 = some x.2 := by
  refine ⟨fun hx => ?_, Memory.mem_of_read?⟩
  obtain ⟨hsorted, -⟩ := hm
  induction m with
  | nil => cases hx
  | cons y rest ih =>
    obtain ⟨hfirst, hrest⟩ := List.pairwise_cons.1 hsorted
    rcases List.mem_cons.1 hx with rfl | hx
    · simp [Memory.read?]
    · have hne : x.1 ≠ y.1 := (hfirst x hx).ne'
      rw [Memory.read?, if_neg hne]
      exact ih hx hrest

/-- Settles O16: both lists hold the cells that read back, and rising addresses fix their order. -/
theorem canonicalMemoriesAreDeterminedByTheirBytes :
    Obligations.CanonicalMemoriesAreDeterminedByTheirBytes := by
  unfold Obligations.CanonicalMemoriesAreDeterminedByTheirBytes
  intro m n hm hn hread
  have : Std.Irrefl fun x y : Host.Cell => x.1 < y.1 := ⟨fun x => lt_irrefl x.1⟩
  have : Std.Antisymm fun x y : Host.Cell => x.1 < y.1 :=
    ⟨fun _ _ hxy hyx => absurd hxy hyx.asymm⟩
  refine hm.1.eq_of_mem_iff hn.1 fun {x} => ?_
  rw [Memory.mem_iff_read? hm, Memory.mem_iff_read? hn, hread]

/-- Settles O14: nothing is listed at reset. -/
theorem resetMeetsTheInvariant : Obligations.ResetMeetsTheInvariant := by
  unfold Obligations.ResetMeetsTheInvariant
  have hempty : State.reset.mem = [] := rfl
  simp [StateInv, Memory.wf, Memory.whole, hempty]

end Sys2Proof.Machine

/-! SUPPORT. Registers and the PC along an instruction (10_state.md R20 to R25). -/

namespace Sys2Proof.Machine

open Sys2Proof.Safety

/-! ### The register file -/

/-- Settles O23 with the read-back laws of `writeReg`. -/
theorem registersAreEightSeparateCells : Obligations.RegistersAreEightSeparateCells := by
  unfold Obligations.RegistersAreEightSeparateCells
  intro s v p q
  exact ⟨State.readReg_r0 s, State.writeReg_r0_pc s v, State.readReg_writeReg_same s p v,
    fun hpq => State.readReg_writeReg_ne s p q v hpq.symm⟩

/-- None of the ways an instruction changes the state reaches R1 to R7 but by its destination
(R20). -/
theorem Effect.sameRegsBut {i : Instr} {s t : State} (h : Effect s i t) :
    SameRegsBut (destinations i) s t := by
  intro q h0 hq
  cases h with
  | sum rd tt hd =>
    rw [hd, List.mem_singleton] at hq
    exact writeSum_readReg_ne s rd q tt h0 hq
  | zeroTested rd v hd =>
    rw [hd, List.mem_singleton] at hq
    exact writeZeroTested_readReg_ne s rd q v h0 hq
  | advance => exact State.readReg_advance_ne s q h0
  | lli =>
    rw [State.readReg_writeReg_ne _ _ _ _ (List.mem_singleton.not.1 hq),
      State.readReg_advance_ne s q h0]
  | sw => rw [State.readReg_setMem, State.readReg_advance_ne s q h0]
  | lm hl =>
    obtain ⟨hregs, -⟩ := loadRegs_frame hl
    rw [hregs q hq, State.readReg_advance_ne s q h0]
  | sm hs =>
    obtain ⟨hmem, -⟩ := storeRegs_frame hs
    rw [hmem, State.readReg_setMem, State.readReg_advance_ne s q h0]
  | go v => exact State.readReg_setPc_ne s v q h0
  | link ra v hr hd =>
    rw [hd, List.mem_singleton] at hq
    rw [State.readReg_setPc_ne _ v q h0, State.readReg_writeReg_ne s ra q _ hq]

/-- Settles O21: every next state is an instruction's effect. -/
theorem registersChangeOnlyAsDestinations : Obligations.RegistersChangeOnlyAsDestinations := by
  unfold Obligations.RegistersChangeOnlyAsDestinations
  exact fun i s t h => (exec_effect h).sameRegsBut

/-! ### The next PC -/

/-- Without a branch, a jump or a write of R0 the next PC is `pc + 2` (R23). -/
theorem Effect.pc_eq_nextPc {i : Instr} {s t : State} (h : Effect s i t)
    (hb : branchesOrJumps i = false) (h0 : .r0 ∉ destinations i) : t.pc = s.nextPc := by
  cases h with
  | sum rd tt hd =>
    rw [hd, List.mem_singleton] at h0
    exact writeSum_pc s rd tt (Ne.symm h0)
  | zeroTested rd v hd =>
    rw [hd, List.mem_singleton] at h0
    exact writeZeroTested_pc s rd v (Ne.symm h0)
  | advance => exact State.advance_pc s
  | lli =>
    rw [State.writeReg_pc_of_ne _ _ _ (Ne.symm (List.mem_singleton.not.1 h0)), State.advance_pc]
  | sw => rw [State.setMem_pc, State.advance_pc]
  | lm hl =>
    obtain ⟨hregs, -⟩ := loadRegs_frame hl
    exact hregs .r0 h0
  | sm hs =>
    obtain ⟨hmem, -⟩ := storeRegs_frame hs
    rw [hmem, State.setMem_pc, State.advance_pc]
  | go v hs hb' => exact absurd (hb'.symm.trans hb) Bool.noConfusion
  | link ra v hr hd hs hb' => exact absurd (hb'.symm.trans hb) Bool.noConfusion

/-- Settles O22: the next PC is `nextPc`, as an integer `pc + 2` modulo 2^16. -/
theorem otherInstructionsGoOnAtTheNextWord : Obligations.OtherInstructionsGoOnAtTheNextWord := by
  unfold Obligations.OtherInstructionsGoOnAtTheNextWord
  intro i s t hb h0 h
  rw [GoesOn, (exec_effect h).pc_eq_nextPc hb h0, State.nextPc_toNat]

/-- What a branch answers (R180). -/
theorem branchIf_eq (taken : Bool) (imm6 : BitVec 6) (s : State) :
    branchIf taken imm6 s =
      .next (if taken then s.setPc (branchTarget s.pc imm6) else s.advance) := by
  cases taken <;> rfl

/-- A link into R0 would write the PC twice (R22). -/
theorem linkAndGo_r0 (target : Word) (s : State) :
    linkAndGo .r0 target s = .refused .doublePcWrite := if_pos rfl

/-- Settles O11: JAL and JLR are both `linkAndGo`. -/
theorem linkIntoProgramCounterIsRefused : Obligations.LinkIntoProgramCounterIsRefused := by
  unfold Obligations.LinkIntoProgramCounterIsRefused
  exact fun s imm9 rb => ⟨linkAndGo_r0 (jumpTarget s.pc imm9) s, linkAndGo_r0 (s.readReg rb) s⟩

/-! ### The parity of the PC (R25) -/

theorem nextPc_parity (s : State) : s.nextPc.toNat % 2 = s.pc.toNat % 2 := by
  rw [State.nextPc_toNat]; omega

theorem branchTarget_parity (pc : Word) (imm6 : BitVec 6) :
    (branchTarget pc imm6).toNat % 2 = pc.toNat % 2 := by
  have := branchTarget_toNat pc imm6
  omega

theorem jumpTarget_parity (base : Word) (imm9 : BitVec 9) :
    (jumpTarget base imm9).toNat % 2 = base.toNat % 2 := by
  have := jumpTarget_toNat base imm9
  omega

theorem branchIf_parity {taken : Bool} {imm6 : BitVec 6} {s t : State}
    (h : branchIf taken imm6 s = .next t) : t.pc.toNat % 2 = s.pc.toNat % 2 := by
  rw [branchIf_eq] at h
  cases h
  split
  · exact branchTarget_parity s.pc imm6
  · exact nextPc_parity s

/-- Only a write of R0, JLR and JRI can change the parity of the PC. -/
theorem exec_parity {i : Instr} {s t : State} (h : exec i s = .next t) (h0 : .r0 ∉ destinations i)
    (hjlr : ∀ ra rb, i ≠ .jlr ra rb) (hjri : ∀ ra imm9, i ≠ .jri ra imm9) :
    t.pc.toNat % 2 = s.pc.toNat % 2 := by
  by_cases hb : branchesOrJumps i = true
  · cases i
    case beq => exact branchIf_parity h
    case blt => exact branchIf_parity h
    case ble => exact branchIf_parity h
    case jal ra imm9 =>
      obtain ⟨-, rfl⟩ := exec_jal_next.1 h
      exact jumpTarget_parity s.pc imm9
    case jlr ra rb => exact absurd rfl (hjlr ra rb)
    case jri ra imm9 => exact absurd rfl (hjri ra imm9)
    all_goals cases hb
  · rw [(exec_effect h).pc_eq_nextPc (Bool.eq_false_iff.2 hb) h0, nextPc_parity]

/-- The four ways to an odd target complete. -/
theorem exec_odd_target (s : State) (ra rb : Reg) (imm9 : BitVec 9) (imm6 : BitVec 6) (i : Instr)
    (h : (ra ≠ .r0 ∧ (s.readReg rb).toNat % 2 = 1 ∧ i = .jlr ra rb)
      ∨ ((s.readReg ra).toNat % 2 = 1 ∧ i = .jri ra imm9)
      ∨ (((s.readReg ra).toNat + imm6.toNat) % 2 = 1 ∧ i = .adi ra .r0 imm6)
      ∨ (imm9.toNat % 2 = 1 ∧ i = .lli .r0 imm9)) :
    ∃ t, exec i s = .next t ∧ t.pc.toNat % 2 = 1 := by
  rcases h with ⟨hra, hodd, rfl⟩ | ⟨hodd, rfl⟩ | ⟨hodd, rfl⟩ | ⟨hodd, rfl⟩
  · exact ⟨_, exec_jlr_next.2 ⟨hra, rfl⟩, hodd⟩
  · exact ⟨_, rfl, (jumpTarget_parity _ _).trans hodd⟩
  · refine ⟨writeSum .r0 (add17 (s.readReg ra) (sext6 imm6) false) s, rfl, ?_⟩
    rw [← State.readReg_r0, writeSum_readReg, sumOf_add17, sext6_toNat, Bool.toNat_false]
    split <;> omega
  · refine ⟨s.advance.writeReg .r0 (zext9 imm9), rfl, ?_⟩
    rw [State.writeReg_r0_pc, zext9_toNat, hodd]

/-- Settles O12: parity is kept, an odd target is reached, and the fetch from it is refused. -/
theorem oddTargetIsKeptThenRefused : Obligations.OddTargetIsKeptThenRefused := by
  unfold Obligations.OddTargetIsKeptThenRefused
  exact ⟨fun _ _ _ => exec_parity, exec_odd_target, fun _ _ _ _ => step_of_odd_pc⟩

end Sys2Proof.Machine

/-! SUPPORT. The flags along an instruction: what C and Z are after it (10_state.md R26, R27). -/

namespace Sys2Proof.Machine

open Sys2Proof.Safety

theorem carryOf_add17_eq_carryOut (a b : Word) (cin : Bool) :
    carryOf (add17 a b cin) = carryOut a b cin := carryOf_add17 a b cin

/-- The flags after an addition: both written if it executes, else both kept (R100). -/
theorem addGroup_flags {k : Bool} {cz : CZ} {ra rb rc : Reg} {s t : State}
    (h : addGroup k cz ra rb rc s = .next t) :
    t.c = (if cz.holds s then
        carryOut (s.readReg ra) (complementIf k (s.readReg rb)) (cz.carryIn s) else s.c)
      ∧ t.z = if cz.holds s then decide (t.readReg rc = 0) else s.z := by
  unfold addGroup at h
  split at h <;> rename_i hcz <;> cases h
  · simp [hcz, carryOf_add17_eq_carryOut, zeroOf]
  · simp [hcz]

/-- The flags after a NAND: Z written if it executes, C kept (R120). -/
theorem nandIf_flags {executes k : Bool} {ra rb rc : Reg} {s t : State}
    (h : nandIf executes k ra rb rc s = .next t) :
    t.c = s.c ∧ t.z = if executes then decide (t.readReg rc = 0) else s.z := by
  cases executes <;> cases h
  · exact ⟨rfl, rfl⟩
  · simp [zeroOf]

theorem branchIf_flags {taken : Bool} {imm6 : BitVec 6} {s t : State}
    (h : branchIf taken imm6 s = .next t) : t.c = s.c ∧ t.z = s.z := by
  rw [branchIf_eq] at h
  cases taken <;> cases h <;> exact ⟨rfl, rfl⟩

theorem linkAndGo_flags {ra : Reg} {target : Word} {s t : State}
    (h : linkAndGo ra target s = .next t) : t.c = s.c ∧ t.z = s.z := by
  obtain ⟨-, rfl⟩ := linkAndGo_next.1 h
  exact ⟨by simp, by simp⟩

/-- Settles O18: the ADD and NAND groups by their common rules, ADI and LW by what they write, and
every other instruction because it keeps both flags. -/
theorem flagsAreWrittenAsTabled : Obligations.FlagsAreWrittenAsTabled := by
  unfold Obligations.FlagsAreWrittenAsTabled
  intro i s t h
  cases i
  case ada | awc | aca | acw =>
    simp only [exec, execAda, execAwc, execAca, execAcw] at h
    exact addGroup_flags h
  case adc | adz | acc | acz => exact addGroup_flags h
  case ndu | ncu =>
    simp only [exec, execNdu, execNcu, nandGroup] at h
    exact nandIf_flags h
  case ndc | ndz | ncc | ncz => exact nandIf_flags h
  case beq | blt | ble => exact branchIf_flags h
  case jal | jlr => exact linkAndGo_flags h
  case jri => cases h; exact ⟨rfl, rfl⟩
  case lli ra imm9 => cases h; exact ⟨State.writeReg_c _ ra _, State.writeReg_z _ ra _⟩
  case adi ra rb imm6 =>
    cases h
    exact ⟨carryOf_add17_eq_carryOut _ (sext6 imm6) false, by simp [zeroAfter, zeroOf]⟩
  case lw =>
    obtain ⟨-, rfl⟩ := exec_lw_next.1 h
    simp [carryAfter, zeroAfter, zeroOf]
  case sw =>
    obtain ⟨-, rfl⟩ := exec_sw_next.1 h
    exact ⟨rfl, rfl⟩
  case lm =>
    obtain ⟨-, hc, hz, -⟩ := loadRegs_frame (exec_lm_next.1 h)
    exact ⟨hc, hz⟩
  case sm =>
    obtain ⟨hmem, -⟩ := storeRegs_frame (exec_sm_next.1 h)
    rw [hmem]
    exact ⟨rfl, rfl⟩

end Sys2Proof.Machine

/-! SUPPORT. Which instructions a flag can reach (10_state.md R28). The two flags are treated at
once: `keepFlags` clears the flags whose mask bit is off, and an instruction that reads none of those
has the same outcome, up to them, from a state and from the state with them cleared. -/

namespace Sys2Proof.Machine

open Sys2Proof.Safety

/-- The state with each flag kept whose mask is on, and cleared otherwise. -/
def State.keepFlags (keepC keepZ : Bool) (s : State) : State :=
  s.setFlags (keepC && s.c) (keepZ && s.z)

section

variable (kc kz : Bool) (s : State)

@[simp] theorem State.keepFlags_pc : (s.keepFlags kc kz).pc = s.pc := rfl
@[simp] theorem State.keepFlags_mem : (s.keepFlags kc kz).mem = s.mem := rfl
@[simp] theorem State.keepFlags_cfg : (s.keepFlags kc kz).cfg = s.cfg := rfl

@[simp] theorem State.keepFlags_readReg (q : Reg) : (s.keepFlags kc kz).readReg q = s.readReg q :=
  s.readReg_setFlags _ _ q

@[simp] theorem State.keepFlags_keepFlags :
    (s.keepFlags kc kz).keepFlags kc kz = s.keepFlags kc kz := by
  simp [State.keepFlags, State.setFlags]

/-! ### Updates of other parts commute with clearing flags -/

theorem State.keepFlags_advance : (s.keepFlags kc kz).advance = s.advance.keepFlags kc kz := rfl

theorem State.keepFlags_setPc (v : Word) :
    (s.keepFlags kc kz).setPc v = (s.setPc v).keepFlags kc kz := rfl

theorem State.keepFlags_setMem (m : Memory) :
    (s.keepFlags kc kz).setMem m = (s.setMem m).keepFlags kc kz := rfl

theorem State.keepFlags_writeReg (r : Reg) (v : Word) :
    (s.keepFlags kc kz).writeReg r v = (s.writeReg r v).keepFlags kc kz := by
  cases r <;> rfl

/-- A sum overwrites both flags, so it does not show what they were. -/
theorem writeSum_keepFlags (rd : Reg) (tt : BitVec 17) :
    writeSum rd tt (s.keepFlags kc kz) = writeSum rd tt s := by
  cases rd <;> rfl

/-- A zero test overwrites Z and leaves C. -/
theorem writeZeroTested_keepFlags (rd : Reg) (v : Word) :
    (writeZeroTested rd v (s.keepFlags kc kz)).keepFlags kc kz
      = (writeZeroTested rd v s).keepFlags kc kz := by
  cases kc <;> cases rd <;> rfl

/-! ### Data accesses -/

theorem State.memRead_keepFlags (a : Word) : (s.keepFlags kc kz).memRead a = s.memRead a := rfl

theorem State.memWrite_keepFlags (a v : Word) :
    (s.keepFlags kc kz).memWrite a v = (s.memWrite a v).map (State.keepFlags kc kz) := by
  have hcheck : (s.keepFlags kc kz).accessRefusal a = s.accessRefusal a := rfl
  simp only [State.memWrite, hcheck]
  cases s.accessRefusal a <;> rfl

theorem loadRegs_keepFlags (src : State) (rs : List Reg) (addr : Word) (t : State) :
    loadRegs (src.keepFlags kc kz) rs addr (t.keepFlags kc kz)
      = (loadRegs src rs addr t).map (State.keepFlags kc kz) := by
  induction rs generalizing addr t with
  | nil => rfl
  | cons r rs ih =>
    simp only [loadRegs, State.memRead_keepFlags, State.keepFlags_writeReg]
    cases src.memRead addr with
    | error e => rfl
    | ok v => exact ih _ _

theorem storeRegs_keepFlags (src : State) (rs : List Reg) (addr : Word) (t : State) :
    storeRegs (src.keepFlags kc kz) rs addr (t.keepFlags kc kz)
      = (storeRegs src rs addr t).map (State.keepFlags kc kz) := by
  induction rs generalizing addr t with
  | nil => rfl
  | cons r rs ih =>
    simp only [storeRegs, State.memWrite_keepFlags, State.keepFlags_readReg]
    cases t.memWrite addr (src.readReg r) with
    | error e => rfl
    | ok t' => exact ih _ _

theorem finish_map (f : State → State) (x : Except Refusal State) :
    finish (x.map f) = mapNext f (finish x) := by
  cases x <;> rfl

/-! ### Outcomes up to the cleared flags -/

/-- Two outcomes are equal but for the flags whose mask is off. -/
def SameButFlags (o o' : Host.Outcome State Fault Refusal) : Prop :=
  mapNext (State.keepFlags kc kz) o = mapNext (State.keepFlags kc kz) o'

variable {kc kz s}

/-- An outcome that differs by the clearing itself is equal but for the cleared flags. -/
theorem sameButFlags_of_mapNext {o o' : Host.Outcome State Fault Refusal}
    (h : o' = mapNext (State.keepFlags kc kz) o) : SameButFlags kc kz o' o := by
  subst h
  cases o <;> simp [SameButFlags, mapNext]

theorem addGroup_keepFlags {k : Bool} {cz : CZ} {ra rb rc : Reg}
    (hholds : cz.holds (s.keepFlags kc kz) = cz.holds s)
    (hcarry : cz.carryIn (s.keepFlags kc kz) = cz.carryIn s) :
    SameButFlags kc kz (addGroup k cz ra rb rc (s.keepFlags kc kz)) (addGroup k cz ra rb rc s) := by
  simp only [addGroup, hholds, hcarry, State.keepFlags_readReg, writeSum_keepFlags]
  cases cz.holds s
  · exact sameButFlags_of_mapNext rfl
  · rfl

theorem nandIf_keepFlags {executes k : Bool} {ra rb rc : Reg} :
    SameButFlags kc kz (nandIf executes k ra rb rc (s.keepFlags kc kz))
      (nandIf executes k ra rb rc s) := by
  cases executes
  · exact sameButFlags_of_mapNext rfl
  · simp only [nandIf, State.keepFlags_readReg]
    exact congrArg Host.Outcome.next (writeZeroTested_keepFlags kc kz s rc _)

theorem branchIf_keepFlags {taken : Bool} {imm6 : BitVec 6} :
    SameButFlags kc kz (branchIf taken imm6 (s.keepFlags kc kz)) (branchIf taken imm6 s) := by
  cases taken <;> exact sameButFlags_of_mapNext rfl

theorem linkAndGo_keepFlags {ra : Reg} {target : Word} :
    SameButFlags kc kz (linkAndGo ra target (s.keepFlags kc kz)) (linkAndGo ra target s) := by
  apply sameButFlags_of_mapNext
  cases ra <;> rfl

/-- An instruction that reads none of the cleared flags goes on alike with and without them. -/
theorem exec_keepFlags {i : Instr} (hc : readsCarry i = true → kc = true)
    (hz : readsZero i = true → kz = true) :
    SameButFlags kc kz (exec i (s.keepFlags kc kz)) (exec i s) := by
  cases i
  case ada | aca =>
    simp only [exec, execAda, execAca]
    exact addGroup_keepFlags rfl rfl
  case awc | acw =>
    obtain rfl := hc rfl
    simp only [exec, execAwc, execAcw]
    exact addGroup_keepFlags rfl rfl
  case adc | acc => obtain rfl := hc rfl; exact addGroup_keepFlags rfl rfl
  case adz | acz => obtain rfl := hz rfl; exact addGroup_keepFlags rfl rfl
  case ndu | ncu =>
    simp only [exec, execNdu, execNcu, nandGroup]
    exact nandIf_keepFlags
  case ndc | ncc => obtain rfl := hc rfl; exact nandIf_keepFlags
  case ndz | ncz => obtain rfl := hz rfl; exact nandIf_keepFlags
  case adi ra rb imm6 =>
    simp only [exec, execAdi, State.keepFlags_readReg, writeSum_keepFlags]
    rfl
  case lli ra imm9 =>
    exact sameButFlags_of_mapNext
      (congrArg Host.Outcome.next (State.keepFlags_writeReg kc kz s.advance ra _))
  case lw ra rb imm6 =>
    simp only [exec, execLw, State.keepFlags_readReg, State.memRead_keepFlags]
    cases s.memRead (effectiveAddress (s.readReg rb) imm6) with
    | error r => rfl
    | ok v => exact congrArg Host.Outcome.next (writeZeroTested_keepFlags kc kz s ra v)
  case sw =>
    apply sameButFlags_of_mapNext
    simp only [exec, execSw, State.keepFlags_readReg, State.keepFlags_advance,
      State.memWrite_keepFlags, finish_map]
  case lm =>
    apply sameButFlags_of_mapNext
    simp only [exec, execLm, State.keepFlags_readReg, State.keepFlags_advance,
      loadRegs_keepFlags, finish_map]
  case sm =>
    apply sameButFlags_of_mapNext
    simp only [exec, execSm, State.keepFlags_readReg, State.keepFlags_advance,
      storeRegs_keepFlags, finish_map]
  case beq | blt | ble =>
    simp only [exec, execBeq, execBlt, execBle, State.keepFlags_readReg, State.keepFlags_cfg]
    exact branchIf_keepFlags
  case jal => exact linkAndGo_keepFlags
  case jlr =>
    simp only [exec, execJlr, State.keepFlags_readReg]
    exact linkAndGo_keepFlags
  case jri =>
    apply sameButFlags_of_mapNext
    simp only [exec, execJri, State.keepFlags_readReg, State.keepFlags_setPc, mapNext]

/-- States that agree but for flags the instruction does not read have the same outcome but for
them. -/
theorem exec_sameButFlags {i : Instr} {s' : State} (h : s'.keepFlags kc kz = s.keepFlags kc kz)
    (hc : readsCarry i = true → kc = true) (hz : readsZero i = true → kz = true) :
    SameButFlags kc kz (exec i s') (exec i s) :=
  calc mapNext (State.keepFlags kc kz) (exec i s')
    _ = mapNext (State.keepFlags kc kz) (exec i (s'.keepFlags kc kz)) := (exec_keepFlags hc hz).symm
    _ = mapNext (State.keepFlags kc kz) (exec i (s.keepFlags kc kz)) := by rw [h]
    _ = mapNext (State.keepFlags kc kz) (exec i s) := exec_keepFlags hc hz

end

/-! ### The named readers -/

theorem addGroup_of_not_holds {cz : CZ} {s : State} (h : cz.holds s = false) (k : Bool)
    (ra rb rc : Reg) : addGroup k cz ra rb rc s = .next s.advance := by
  simp [addGroup, h]

theorem nandIf_of_not_executes {executes : Bool} (h : executes = false) (k : Bool)
    (ra rb rc : Reg) (s : State) : nandIf executes k ra rb rc s = .next s.advance := by
  simp [nandIf, h]

/-- The sum as arithmetic on words: the carry in is added as 1. -/
theorem sumOf_add17_eq (a b : Word) (cin : Bool) :
    sumOf (add17 a b cin) = a + b + if cin then 1 else 0 := by
  apply BitVec.eq_of_toNat_eq
  cases cin <;> simp [sumOf_add17, BitVec.toNat_add]

theorem awc_result {ra rb rc : Reg} {s t : State} (h : exec (.awc ra rb rc) s = .next t) :
    t.readReg rc = s.readReg ra + s.readReg rb + if s.c then 1 else 0 := by
  cases h
  exact (writeSum_readReg s rc _).trans (sumOf_add17_eq _ _ s.c)

theorem acw_result {ra rb rc : Reg} {s t : State} (h : exec (.acw ra rb rc) s = .next t) :
    t.readReg rc = s.readReg ra + ~~~s.readReg rb + if s.c then 1 else 0 := by
  cases h
  exact (writeSum_readReg s rc _).trans (sumOf_add17_eq _ _ s.c)

/-- Settles O19: no other instruction's outcome shows the flag, a false condition only advances, and
AWC and ACW add C. -/
theorem flagsAreReadAsTabled : Obligations.FlagsAreReadAsTabled := by
  unfold Obligations.FlagsAreReadAsTabled
  refine ⟨fun i s b hc => ?_, fun i s b hz => ?_, fun ra rb rc s i hc hi => ?_,
    fun ra rb rc s i hz hi => ?_, fun ra rb rc s t => ⟨awc_result, acw_result⟩⟩
  · exact exec_sameButFlags (kc := false) (kz := true) rfl (fun h => hc.symm.trans h) fun _ => rfl
  · exact exec_sameButFlags (kc := true) (kz := false) rfl (fun _ => rfl) fun h => hz.symm.trans h
  · simp only [List.mem_cons, List.not_mem_nil, or_false] at hi
    rcases hi with rfl | rfl | rfl | rfl
    · exact addGroup_of_not_holds (cz := .ifCarry) hc false ra rb rc
    · exact addGroup_of_not_holds (cz := .ifCarry) hc true ra rb rc
    · exact nandIf_of_not_executes hc false ra rb rc s
    · exact nandIf_of_not_executes hc true ra rb rc s
  · simp only [List.mem_cons, List.not_mem_nil, or_false] at hi
    rcases hi with rfl | rfl | rfl | rfl
    · exact addGroup_of_not_holds (cz := .ifZero) hz false ra rb rc
    · exact addGroup_of_not_holds (cz := .ifZero) hz true ra rb rc
    · exact nandIf_of_not_executes hz false ra rb rc s
    · exact nandIf_of_not_executes hz true ra rb rc s

end Sys2Proof.Machine

/-! SUPPORT. Data accesses (20_memory.md): a word as its two bytes, the addresses to which an access
is refused, what a store leaves at its addresses, and what every instruction keeps of memory. -/

namespace Sys2Proof.Machine

open Sys2Proof.Safety

/-! ### A word as its two bytes (R43) -/

theorem joinWord_little_toNat (lower upper : Byte) :
    (joinWord .little lower upper).toNat = upper.toNat * 256 + lower.toNat :=
  append_toNat upper lower

theorem joinWord_big_toNat (lower upper : Byte) :
    (joinWord .big lower upper).toNat = lower.toNat * 256 + upper.toNat :=
  append_toNat lower upper

/-- Settles O25: `wordAt` joins the two bytes in the machine's order. -/
theorem wordIsItsTwoBytesInOrder : Obligations.WordIsItsTwoBytesInOrder := by
  unfold Obligations.WordIsItsTwoBytesInOrder
  intro s a
  refine ⟨fun ho => ?_, fun ho => ?_⟩
  · rw [State.wordAt, ho, joinWord_little_toNat]
  · rw [State.wordAt, ho, joinWord_big_toNat]

/-! ### Refused accesses (R44, R47, R56) -/

theorem State.accessRefusal_of_odd {s : State} {a : Word} (h : a.toNat % 2 = 1) :
    s.accessRefusal a = some .misalignedAccess := by
  rw [State.accessRefusal_eq, if_pos h]

theorem State.accessRefusal_of_unmapped {s : State} {a : Word} (heven : a.toNat % 2 = 0)
    (hmap : s.cfg.mapped a = false) : s.accessRefusal a = some .unmappedAccess := by
  simp [State.accessRefusal_eq, heven, hmap]

/-- LW answers the access check's refusal. -/
theorem exec_lw_refused {s : State} {ra rb : Reg} {imm6 : BitVec 6} {r : Refusal}
    (h : s.accessRefusal (effectiveAddress (s.readReg rb) imm6) = some r) :
    exec (.lw ra rb imm6) s = .refused r := by
  simp only [exec, execLw, State.memRead_error_iff.2 h]

/-- SW answers the access check's refusal. -/
theorem exec_sw_refused {s : State} {ra rb : Reg} {imm6 : BitVec 6} {r : Refusal}
    (h : s.accessRefusal (effectiveAddress (s.readReg rb) imm6) = some r) :
    exec (.sw ra rb imm6) s = .refused r :=
  finish_refused.2 (State.memWrite_error_iff.2 h)

/-- Settles O38: LW and SW answer the refusal of the access check at their effective address. -/
theorem loadAndStoreRefuseBadAddresses : Obligations.LoadAndStoreRefuseBadAddresses := by
  unfold Obligations.LoadAndStoreRefuseBadAddresses
  rintro s ra rb imm6 ea i rfl hi
  have hrefused : ∀ r, s.accessRefusal (effectiveAddress (s.readReg rb) imm6) = some r →
      exec i s = .refused r := by
    simp only [List.mem_cons, List.not_mem_nil, or_false] at hi
    rcases hi with rfl | rfl
    · exact fun _ => exec_lw_refused
    · exact fun _ => exec_sw_refused
  exact ⟨fun hodd => hrefused _ (State.accessRefusal_of_odd hodd),
    fun heven hmap => hrefused _ (State.accessRefusal_of_unmapped heven hmap)⟩

/-- Every refusal of an access to the address sequence of `n` words is `r`, and there is one. -/
def SequenceRefusedAs (s : State) (base : Word) (n : Nat) (r : Refusal) : Prop :=
  (∃ k, k < n ∧ s.accessRefusal (sequenceAddress base k) = some r)
    ∧ ∀ k q, k < n → s.accessRefusal (sequenceAddress base k) = some q → q = r

theorem not_accessible_of_refusal {s : State} {a : Word} {r : Refusal}
    (h : s.accessRefusal a = some r) : ¬ Accessible s a := fun ha => by
  rw [State.accessRefusal_none ha] at h
  cases h

theorem loadRegs_refused {src t : State} {rs : List Reg} {base : Word} {r : Refusal}
    (h : SequenceRefusedAs src base rs.length r) : loadRegs src rs base t = .error r := by
  obtain ⟨⟨k, hk, hr⟩, hall⟩ := h
  cases hload : loadRegs src rs base t with
  | ok t' => exact absurd (loadRegs_accessible hload k hk) (not_accessible_of_refusal hr)
  | error q =>
    obtain ⟨j, hj, hq⟩ := loadRegs_error hload
    rw [hall j q hj hq]

theorem storeRegs_refused {src t : State} {rs : List Reg} {base : Word} {r : Refusal}
    (h : SequenceRefusedAs t base rs.length r) : storeRegs src rs base t = .error r := by
  obtain ⟨⟨k, hk, hr⟩, hall⟩ := h
  cases hstore : storeRegs src rs base t with
  | ok t' => exact absurd (storeRegs_accessible hstore k hk) (not_accessible_of_refusal hr)
  | error q =>
    obtain ⟨j, hj, hq⟩ := storeRegs_error hstore
    rw [hall j q hj hq]

/-- The addresses of a sequence have the parity of its base. -/
theorem sequenceAddress_parity (base : Word) (k : Nat) :
    (sequenceAddress base k).toNat % 2 = base.toNat % 2 := by
  rw [sequenceAddress_toNat]
  omega

theorem sequenceRefusedAs_misaligned {s : State} {base : Word} {n : Nat}
    (hodd : base.toNat % 2 = 1) (hn : 0 < n) : SequenceRefusedAs s base n .misalignedAccess := by
  have hrefused : ∀ k, s.accessRefusal (sequenceAddress base k) = some .misalignedAccess := fun k =>
    State.accessRefusal_of_odd ((sequenceAddress_parity base k).trans hodd)
  refine ⟨⟨0, hn, hrefused 0⟩, fun k q _ hq => ?_⟩
  rw [hrefused k] at hq
  exact (Option.some.inj hq).symm

theorem sequenceRefusedAs_unmapped {s : State} {base : Word} {n k : Nat}
    (heven : base.toNat % 2 = 0) (hk : k < n)
    (hmap : s.cfg.mapped (sequenceAddress base k) = false) :
    SequenceRefusedAs s base n .unmappedAccess := by
  have heven' : ∀ j, (sequenceAddress base j).toNat % 2 = 0 := fun j =>
    (sequenceAddress_parity base j).trans heven
  refine ⟨⟨k, hk, State.accessRefusal_of_unmapped (heven' k) hmap⟩, fun j q _ hq => ?_⟩
  rcases State.accessRefusal_some hq with ⟨-, hodd⟩ | ⟨rfl, -⟩
  · exact absurd (heven' j) (by omega)
  · rfl

/-- Each of the eight mask bits selects a register, so only the empty mask selects none. -/
theorem transferOrder_length_pos {mask8 : BitVec 8} (h : mask8 ≠ 0#8) :
    0 < (transferOrder mask8).length := by
  rw [List.length_pos_iff]
  intro hnil
  have hbits : ∀ p ∈ maskRegs, mask8.getLsbD p.1 = false := by
    simpa only [transferOrder, List.map_eq_nil_iff, List.filter_eq_nil_iff,
      Bool.not_eq_true] using hnil
  refine h (BitVec.eq_of_getLsbD_eq fun j hj => ?_)
  rw [BitVec.getLsbD_zero]
  obtain ⟨p, hp, rfl⟩ := List.mem_map.1 (show j ∈ maskRegs.map Prod.fst from List.mem_range.2 hj)
  exact hbits p hp

/-- Settles O46: the accesses of LM and SM are those of the sequence, which are all refused for one
reason. -/
theorem multipleTransfersRefuseAsAWhole : Obligations.MultipleTransfersRefuseAsAWhole := by
  unfold Obligations.MultipleTransfersRefuseAsAWhole
  intro s ra mask8 i hi
  have hrefused : ∀ r, SequenceRefusedAs s (s.readReg ra) (transferOrder mask8).length r →
      exec i s = .refused r := by
    intro r hr
    simp only [List.mem_cons, List.not_mem_nil, or_false] at hi
    rcases hi with rfl | rfl
    · exact finish_refused.2 (loadRegs_refused hr)
    · exact finish_refused.2 (storeRegs_refused hr)
  refine ⟨fun hodd hmask => ?_, fun heven ⟨k, hk, hmap⟩ => ?_⟩
  · exact hrefused _ (sequenceRefusedAs_misaligned hodd (transferOrder_length_pos hmask))
  · exact hrefused _ (sequenceRefusedAs_unmapped heven hk hmap)

/-! ### What the stores leave at their addresses -/

/-- The state can access the word at the address, which is written and reads as `v`. -/
structure HoldsWord (t : State) (a v : Word) : Prop where
  accessible : Accessible t a
  written : wordWritten t a = true
  word : t.wordAt a = v

theorem holdsWord_of_bytes {t : State} {a v : Word} (ha : Accessible t a)
    (hlower : t.mem.read? a.toNat = some (splitWord t.cfg.byteOrder v).1)
    (hupper : t.mem.read? (a.toNat + 1) = some (splitWord t.cfg.byteOrder v).2) :
    HoldsWord t a v :=
  ⟨ha, by simp [wordWritten, hlower, hupper],
    by rw [State.wordAt_of_bytes hlower hupper, joinWord_splitWord]⟩

/-- SW leaves the stored word at its effective address (R142). -/
theorem exec_sw_holdsWord {s t : State} {ra rb : Reg} {imm6 : BitVec 6}
    (h : exec (.sw ra rb imm6) s = .next t) :
    HoldsWord t (effectiveAddress (s.readReg rb) imm6) (s.readReg ra) := by
  obtain ⟨ha, rfl⟩ := exec_sw_next.1 h
  exact holdsWord_of_bytes ha (by simp [Memory.read?_writeWord]) (by simp [Memory.read?_writeWord])

/-- SM leaves each selected register at its place of the sequence (R162). -/
theorem exec_sm_holdsWord {s t : State} {ra q : Reg} {mask8 : BitVec 8} {k : Nat}
    (h : exec (.sm ra mask8) s = .next t) (hk : (transferOrder mask8)[k]? = some q) :
    HoldsWord t (sequenceAddress (s.readReg ra) k) (s.readReg q) := by
  have hstore := exec_sm_next.1 h
  have hcfg : t.cfg = s.cfg := (exec_effect h).cfg_eq
  have hlen : (transferOrder mask8).length ≤ 32768 :=
    (transferOrder_length_le mask8).trans (by decide)
  obtain ⟨hlower, hupper⟩ := storeRegs_bytes hlen hstore k q hk
  obtain ⟨heven, hmap⟩ :=
    storeRegs_accessible hstore k (List.getElem?_eq_some_iff.1 hk).1
  rw [State.advance_cfg, ← hcfg] at hlower hupper hmap
  exact holdsWord_of_bytes ⟨heven, hmap⟩ hlower hupper

/-- Settles O39: the load's address holds the word stored. -/
theorem loadAfterStoreReturnsTheWord : Obligations.LoadAfterStoreReturnsTheWord := by
  unfold Obligations.LoadAfterStoreReturnsTheWord
  intro s t ra rb rd re imm6 jmm6 hstore haddr
  obtain ⟨ha, -, hword⟩ := exec_sw_holdsWord hstore
  rw [← haddr] at ha hword
  exact ⟨_, exec_lw_next.2 ⟨ha, rfl⟩, (writeZeroTested_readReg t rd _).trans hword⟩

/-- The instruction held at the PC is the one the step runs. -/
theorem step_of_holdsWord {t : State} {v : Word} {j : Instr} (h : HoldsWord t t.pc v)
    (hd : decode v = .ok j) : step t = exec j t :=
  step_of_fetch_ok (State.fetch_ok_iff.2 ⟨h.accessible, h.written, h.word.symm ▸ hd⟩)

/-- Settles O41: after the store the next PC holds the word stored. -/
theorem storeIsSeenByTheNextFetch : Obligations.StoreIsSeenByTheNextFetch := by
  unfold Obligations.StoreIsSeenByTheNextFetch
  refine ⟨fun s t ra rb imm6 j hsw hpc hd => ?_, fun s t ra q mask8 k j hsm hk hpc hd => ?_⟩
  · exact step_of_holdsWord (hpc ▸ exec_sw_holdsWord hsw) hd
  · exact step_of_holdsWord (hpc ▸ exec_sm_holdsWord hsm hk) hd

/-- A second write of the same word changes nothing further (R55). -/
theorem Memory.writeWord_writeWord {m : Memory} (o : ByteOrder) {a : Word} (v : Word) (hm : m.wf)
    (ha : a.toNat % 2 = 0) :
    Memory.writeWord o (Memory.writeWord o m a v) a v = Memory.writeWord o m a v := by
  have hwf := Memory.wf_writeWord o v hm ha
  refine canonicalMemoriesAreDeterminedByTheirBytes _ _ (Memory.wf_writeWord o v hwf ha) hwf
    fun b => ?_
  simp only [Memory.read?_writeWord]
  split
  · rfl
  · split <;> rfl

/-- Settles O40: back at the same PC the SW reads the same registers and writes the same word. -/
theorem storingTwiceIsStoringOnce : Obligations.StoringTwiceIsStoringOnce := by
  unfold Obligations.StoringTwiceIsStoringOnce
  intro s t ra rb imm6 hwf h
  obtain ⟨ha, rfl⟩ := exec_sw_next.1 h
  have hregs : ∀ (m : Memory) (q : Reg),
      ((s.advance.setMem m).setPc s.pc).readReg q = s.readReg q := fun m q => by cases q <;> rfl
  refine exec_sw_next.2 ?_
  rw [hregs, hregs]
  refine ⟨ha, ?_⟩
  rw [State.setPc_mem, State.setMem_mem, State.setPc_cfg, State.setMem_cfg, State.advance_cfg,
    Memory.writeWord_writeWord _ _ hwf ha.1]
  rfl

/-! ### Memory along an instruction (R46) -/

/-- None of the ways an instruction changes the state reaches memory, the two stores apart. -/
theorem Effect.mem_eq {i : Instr} {s t : State} (h : Effect s i t) (hs : ¬ isStore i) :
    t.mem = s.mem := by
  cases h with
  | sum rd tt => exact writeSum_mem s rd tt
  | zeroTested rd v => exact writeZeroTested_mem s rd v
  | advance => exact State.advance_mem s
  | lli => rw [State.writeReg_mem, State.advance_mem]
  | sw => exact absurd (.inl ⟨_, _, _, rfl⟩) hs
  | lm hl =>
    obtain ⟨-, -, -, hmem, -⟩ := loadRegs_frame hl
    rw [hmem, State.advance_mem]
  | sm => exact absurd (.inr ⟨_, _, rfl⟩) hs
  | go v => exact State.setPc_mem s v
  | link => rw [State.setPc_mem, State.writeReg_mem]

/-- Every instruction keeps the invariant: a store writes whole words at even addresses, every other
instruction keeps memory. -/
theorem exec_stateInv {i : Instr} {s t : State} (hi : StateInv s) (h : exec i s = .next t) :
    StateInv t := by
  by_cases hs : isStore i
  · rcases hs with ⟨ra, rb, imm6, rfl⟩ | ⟨ra, mask8, rfl⟩
    · obtain ⟨⟨heven, -⟩, rfl⟩ := exec_sw_next.1 h
      exact ⟨Memory.wf_writeWord _ _ hi.1 heven, Memory.whole_writeWord _ _ hi.2 heven⟩
    · exact storeRegs_inv (t := s.advance) hi (exec_sm_next.1 h)
  · rw [StateInv, (exec_effect h).mem_eq hs]
    exact hi

/-- Settles O13: a step with a next state is an instruction's, and every instruction keeps the
invariant. -/
theorem stepKeepsTheInvariant : Obligations.StepKeepsTheInvariant := by
  unfold Obligations.StepKeepsTheInvariant
  intro s t hi h
  obtain ⟨i, -, hexec⟩ := step_next_iff.1 h
  exact exec_stateInv hi hexec

/-! ### The words an instruction stores (R53) -/

theorem mem_storedBy_sw {s : State} {ra rb : Reg} {imm6 : BitVec 6} {w : Word} :
    w ∈ storedBy (.sw ra rb imm6) s ↔ w = effectiveAddress (s.readReg rb) imm6 :=
  List.mem_singleton

theorem mem_storedBy_sm {s : State} {ra : Reg} {mask8 : BitVec 8} {w : Word} :
    w ∈ storedBy (.sm ra mask8) s ↔
      ∃ k, k < (transferOrder mask8).length ∧ w = sequenceAddress (s.readReg ra) k := by
  simp only [storedBy, List.mem_map, List.mem_range, eq_comm]

theorem storedBy_of_not_isStore (s : State) (i : Instr) (h : ¬ isStore i) : storedBy i s = [] := by
  cases i
  case sw => exact absurd (.inl ⟨_, _, _, rfl⟩) h
  case sm => exact absurd (.inr ⟨_, _, rfl⟩) h
  all_goals rfl

/-- The words an instruction stores are written after it. -/
theorem exec_storedBy_written {s t : State} {i : Instr} (h : exec i s = .next t) {w : Word}
    (hw : w ∈ storedBy i s) : wordWritten t w = true := by
  by_cases hs : isStore i
  · rcases hs with ⟨ra, rb, imm6, rfl⟩ | ⟨ra, mask8, rfl⟩
    · rw [mem_storedBy_sw.1 hw]
      exact (exec_sw_holdsWord h).written
    · obtain ⟨k, hk, rfl⟩ := mem_storedBy_sm.1 hw
      exact (exec_sm_holdsWord h (List.getElem?_eq_getElem hk)).written
  · rw [storedBy_of_not_isStore s i hs] at hw
    exact absurd hw List.not_mem_nil

/-- Every byte outside the words an instruction stores is as before. -/
theorem exec_storedBy_frame {s t : State} {i : Instr} (h : exec i s = .next t) {a : Nat}
    (ha : ∀ w ∈ storedBy i s, a ≠ w.toNat ∧ a ≠ w.toNat + 1) : t.mem.read? a = s.mem.read? a := by
  by_cases hs : isStore i
  · rcases hs with ⟨ra, rb, imm6, rfl⟩ | ⟨ra, mask8, rfl⟩
    · obtain ⟨-, rfl⟩ := exec_sw_next.1 h
      obtain ⟨hlower, hupper⟩ := ha _ (mem_storedBy_sw.2 rfl)
      rw [State.setMem_mem, Memory.read?_writeWord, if_neg hlower, if_neg hupper]
    · obtain ⟨-, hframe⟩ := storeRegs_frame (exec_sm_next.1 h)
      exact hframe a fun k hk => ha _ (mem_storedBy_sm.2 ⟨k, hk, rfl⟩)
  · rw [(exec_effect h).mem_eq hs]

/-- Settles O59: the two address formulas, no words for every other instruction, and what each store
writes and leaves. -/
theorem storedWordsAreThoseOfSwAndSm : Obligations.StoredWordsAreThoseOfSwAndSm := by
  unfold Obligations.StoredWordsAreThoseOfSwAndSm
  refine ⟨fun s ra rb imm6 w => ?_, fun s ra mask8 w => ?_, storedBy_of_not_isStore,
    fun s t i h => ⟨fun w => exec_storedBy_written h, fun a => exec_storedBy_frame h⟩⟩
  · rw [mem_storedBy_sw, ← effectiveAddress_toNat, Nat.cast_inj, BitVec.toNat_inj]
  · simp only [mem_storedBy_sm, ← sequenceAddress_toNat, BitVec.toNat_inj]

/-! ### The cautious step (R53) -/

/-- At a PC that is not recorded, the cautious step stops where the fetch does, and otherwise runs
the instruction fetched and records what it stores. -/
theorem cautiousStep_of_not_mem {stored : List Word} {s : State} (hpc : s.pc ∉ stored) :
    (∃ r, s.fetch = .error r ∧ cautiousStep stored s = .refused r)
    ∨ ∃ i, s.fetch = .ok i
        ∧ (∀ t, exec i s = .next t → cautiousStep stored s = .next (storedBy i s ++ stored, t))
        ∧ ∀ r, exec i s = .refused r → cautiousStep stored s = .refused r := by
  rcases cautiousStep_cases stored s with ⟨hmem, -⟩ | hfetch | ⟨i, -, hfetch, hstep⟩
  · exact absurd hmem hpc
  · exact .inl hfetch
  · exact .inr ⟨i, hfetch, fun t ht => by rw [hstep, ht], fun r hr => by rw [hstep, hr]⟩

/-- Where the cautious step goes on, it ran the instruction fetched from a PC not recorded. -/
theorem cautiousStep_next {stored stored' : List Word} {s t : State}
    (h : cautiousStep stored s = .next (stored', t)) :
    s.pc ∉ stored ∧ ∃ i, s.fetch = .ok i ∧ exec i s = .next t
      ∧ stored' = storedBy i s ++ stored := by
  rcases cautiousStep_cases stored s with ⟨-, -, -, hstep⟩ | ⟨r, -, hstep⟩ | ⟨i, hpc, hfetch, hstep⟩
  · rw [hstep] at h; cases h
  · rw [hstep] at h; cases h
  · rw [hstep] at h
    cases hexec : exec i s with
    | next u => rw [hexec] at h; cases h; exact ⟨hpc, i, hfetch, hexec, rfl⟩
    | refused r => rw [hexec] at h; cases h
    | fault f => rw [hexec] at h; cases h

theorem cautiousStep_of_step_next {stored : List Word} {s t : State} (hpc : s.pc ∉ stored)
    (h : step s = .next t) : ∃ stored', cautiousStep stored s = .next (stored', t) := by
  rcases cautiousStep_of_not_mem hpc with ⟨r, hfetch, -⟩ | ⟨i, hfetch, hnext, -⟩
  · rw [step_of_fetch_error hfetch] at h; cases h
  · rw [step_of_fetch_ok hfetch] at h
    exact ⟨storedBy i s ++ stored, hnext t h⟩

theorem cautiousStep_of_step_refused {stored : List Word} {s : State} {r : Refusal}
    (hpc : s.pc ∉ stored) (h : step s = .refused r) : cautiousStep stored s = .refused r := by
  rcases cautiousStep_of_not_mem hpc with ⟨q, hfetch, hstep⟩ | ⟨i, hfetch, -, hrefused⟩
  · rw [step_of_fetch_error hfetch] at h; cases h; exact hstep
  · rw [step_of_fetch_ok hfetch] at h
    exact hrefused r h

/-- A recorded word is not fetched, whatever it decodes to. -/
theorem cautiousStep_of_mem {stored : List Word} {s : State} (hpc : s.pc ∈ stored)
    (ha : Accessible s s.pc) (hw : wordWritten s s.pc = true) :
    cautiousStep stored s = .refused .fetchAfterStore := by
  obtain ⟨b, hbytes⟩ := State.fetchBytes_isOk_iff.2 ⟨ha, hw⟩
  simp [cautiousStep, hbytes, hpc]

/-- Settles O42: going on, agreeing at a PC not recorded, and refusing a recorded one. -/
theorem cautiousStepAgreesOrRefuses : Obligations.CautiousStepAgreesOrRefuses := by
  unfold Obligations.CautiousStepAgreesOrRefuses
  refine ⟨fun stored stored' s t h => ?_, fun _ _ _ => cautiousStep_of_step_next,
    fun _ _ _ => cautiousStep_of_step_refused, fun _ _ => cautiousStep_of_mem⟩
  obtain ⟨hpc, i, hfetch, hexec, rfl⟩ := cautiousStep_next h
  obtain ⟨-, -, hdecode⟩ := State.fetch_ok_iff.1 hfetch
  refine ⟨step_next_iff.2 ⟨i, hfetch, hexec⟩, hpc, i, hdecode, fun w => ?_⟩
  rw [List.mem_append, or_comm]

end Sys2Proof.Machine

/-! SUPPORT. Which instructions memory and the byte order can reach (20_memory.md R43, R46).
`withStorage` gives a state another memory, held in another byte order. An instruction that touches no
memory has the same outcome but for that; LW and LM do too when the two hold the same words; SW and SM
leave memories that again hold the same words. -/

namespace Sys2Proof.Machine

open Sys2Proof.Safety

/-- The state with memory `m`, its words' bytes in the order `o`. -/
def State.withStorage (s : State) (m : Memory) (o : ByteOrder) : State :=
  { s with mem := m, cfg := { s.cfg with byteOrder := o } }

section

variable (s : State) (m : Memory) (o : ByteOrder)

@[simp] theorem State.withStorage_pc : (s.withStorage m o).pc = s.pc := rfl
@[simp] theorem State.withStorage_mem : (s.withStorage m o).mem = m := rfl
@[simp] theorem State.withStorage_cfg :
    (s.withStorage m o).cfg = { s.cfg with byteOrder := o } := rfl

@[simp] theorem State.withStorage_readReg (q : Reg) :
    (s.withStorage m o).readReg q = s.readReg q := by
  cases q <;> rfl

@[simp] theorem State.withStorage_accessRefusal (a : Word) :
    (s.withStorage m o).accessRefusal a = s.accessRefusal a := rfl

theorem State.withStorage_own_order : s.withStorage m s.cfg.byteOrder = s.setMem m := rfl

/-! ### Updates of other parts commute with the change of storage -/

theorem State.withStorage_advance : (s.withStorage m o).advance = s.advance.withStorage m o := rfl

theorem State.withStorage_setPc (v : Word) :
    (s.withStorage m o).setPc v = (s.setPc v).withStorage m o := rfl

theorem State.withStorage_writeReg (r : Reg) (v : Word) :
    (s.withStorage m o).writeReg r v = (s.writeReg r v).withStorage m o := by
  cases r <;> rfl

theorem writeSum_withStorage (rd : Reg) (tt : BitVec 17) :
    writeSum rd tt (s.withStorage m o) = (writeSum rd tt s).withStorage m o := by
  cases rd <;> rfl

theorem writeZeroTested_withStorage (rd : Reg) (v : Word) :
    writeZeroTested rd v (s.withStorage m o) = (writeZeroTested rd v s).withStorage m o := by
  cases rd <;> rfl

/-! ### The instructions that read no memory -/

theorem addGroup_withStorage (k : Bool) (cz : CZ) (ra rb rc : Reg) :
    addGroup k cz ra rb rc (s.withStorage m o)
      = mapNext (State.withStorage · m o) (addGroup k cz ra rb rc s) := by
  have hholds : cz.holds (s.withStorage m o) = cz.holds s := by cases cz <;> rfl
  have hcarry : cz.carryIn (s.withStorage m o) = cz.carryIn s := by cases cz <;> rfl
  simp only [addGroup, hholds, hcarry, State.withStorage_readReg, writeSum_withStorage]
  split <;> rfl

theorem nandIf_withStorage (executes k : Bool) (ra rb rc : Reg) :
    nandIf executes k ra rb rc (s.withStorage m o)
      = mapNext (State.withStorage · m o) (nandIf executes k ra rb rc s) := by
  simp only [nandIf, State.withStorage_readReg, writeZeroTested_withStorage]
  split <;> rfl

theorem branchIf_withStorage (taken : Bool) (imm6 : BitVec 6) :
    branchIf taken imm6 (s.withStorage m o)
      = mapNext (State.withStorage · m o) (branchIf taken imm6 s) := by
  cases taken <;> rfl

theorem linkAndGo_withStorage (ra : Reg) (target : Word) :
    linkAndGo ra target (s.withStorage m o)
      = mapNext (State.withStorage · m o) (linkAndGo ra target s) := by
  cases ra <;> rfl

/-! ### The reads of LW and LM -/

variable {s m o}

theorem State.memRead_withStorage (h : SameWords s (s.withStorage m o)) (a : Word) :
    (s.withStorage m o).memRead a = s.memRead a := by
  cases hr : s.accessRefusal a with
  | some r =>
    have hr' : (s.withStorage m o).accessRefusal a = some r := hr
    rw [State.memRead_error_iff.2 hr, State.memRead_error_iff.2 hr']
  | none =>
    have ha := State.accessible_of_none hr
    have ha' : Accessible (s.withStorage m o) a := ha
    rw [State.memRead_ok_iff.2 ⟨ha, rfl⟩, State.memRead_ok_iff.2 ⟨ha', (h.words a ha.1).symm⟩]

theorem loadRegs_withStorage (h : SameWords s (s.withStorage m o)) (rs : List Reg) (addr : Word)
    (t : State) :
    loadRegs (s.withStorage m o) rs addr (t.withStorage m o)
      = (loadRegs s rs addr t).map (State.withStorage · m o) := by
  induction rs generalizing addr t with
  | nil => rfl
  | cons r rs ih =>
    simp only [loadRegs, State.memRead_withStorage h, State.withStorage_writeReg]
    cases s.memRead addr with
    | error e => rfl
    | ok v => exact ih _ _

/-- An instruction that stores nothing goes on alike with another storage, which for LW and LM has to
hold the same words. -/
theorem exec_withStorage {i : Instr} (hstore : ¬ isStore i)
    (h : touchesMemory i = true → SameWords s (s.withStorage m o)) :
    exec i (s.withStorage m o) = mapNext (State.withStorage · m o) (exec i s) := by
  cases i
  case sw => exact absurd (.inl ⟨_, _, _, rfl⟩) hstore
  case sm => exact absurd (.inr ⟨_, _, rfl⟩) hstore
  case ada | awc | aca | acw =>
    simp only [exec, execAda, execAwc, execAca, execAcw]
    exact addGroup_withStorage s m o _ _ _ _ _
  case adc | adz | acc | acz => exact addGroup_withStorage s m o _ _ _ _ _
  case adi =>
    simp only [exec, execAdi, State.withStorage_readReg, writeSum_withStorage, mapNext]
  case ndu | ncu =>
    simp only [exec, execNdu, execNcu, nandGroup]
    exact nandIf_withStorage s m o _ _ _ _ _
  case ndc | ndz | ncc | ncz => exact nandIf_withStorage s m o _ _ _ _ _
  case lli => exact congrArg Host.Outcome.next (State.withStorage_writeReg s.advance m o _ _)
  case lw ra rb imm6 =>
    simp only [exec, execLw, State.withStorage_readReg, State.memRead_withStorage (h rfl)]
    cases s.memRead (effectiveAddress (s.readReg rb) imm6) with
    | error r => rfl
    | ok v => exact congrArg Host.Outcome.next (writeZeroTested_withStorage s m o ra v)
  case lm =>
    simp only [exec, execLm, State.withStorage_readReg, State.withStorage_advance,
      loadRegs_withStorage (h rfl), finish_map]
  case beq | blt | ble =>
    simp only [exec, execBeq, execBlt, execBle, State.withStorage_readReg,
      State.withStorage_cfg]
    exact branchIf_withStorage s m o _ _
  case jal => exact linkAndGo_withStorage s m o _ _
  case jlr =>
    simp only [exec, execJlr, State.withStorage_readReg]
    exact linkAndGo_withStorage s m o _ _
  case jri =>
    simp only [exec, execJri, State.withStorage_readReg, State.withStorage_setPc, mapNext]

end

theorem not_isStore_of_touchesMemory {i : Instr} (h : touchesMemory i = false) : ¬ isStore i := by
  rintro (⟨ra, rb, imm6, rfl⟩ | ⟨ra, mask8, rfl⟩) <;> cases h

/-- Settles O20: another memory in the same byte order is another storage, and only the stores reach
a byte. -/
theorem onlyLoadsAndStoresTouchMemory : Obligations.OnlyLoadsAndStoresTouchMemory := by
  unfold Obligations.OnlyLoadsAndStoresTouchMemory
  refine ⟨fun i s m h => ?_, fun i s t hs h a => by rw [(exec_effect h).mem_eq hs]⟩
  rw [← State.withStorage_own_order, exec_withStorage (not_isStore_of_touchesMemory h)
    fun ht => absurd (h.symm.trans ht) Bool.noConfusion]
  cases hexec : exec i s with
  | next t =>
    rw [mapNext, mapNext, ← State.withStorage_own_order, (exec_effect hexec).cfg_eq]
  | fault f => rfl
  | refused r => rfl

end Sys2Proof.Machine

/-! ### States that hold the same words (R43) -/

namespace Sys2Proof.Safety

open Sys2Proof.Machine

/-- Such states differ in their storage alone. -/
theorem SameWords.exists_withStorage {s t : State} (h : SameWords s t) :
    ∃ m o, t = s.withStorage m o := by
  refine ⟨t.mem, t.cfg.byteOrder, ?_⟩
  have hcfg : t.cfg = { s.cfg with byteOrder := t.cfg.byteOrder } := by rw [← h.params]
  obtain ⟨hc, hz⟩ := h.flags
  have hpc : t.pc = s.pc := h.regs .r0
  have h1 : t.r1 = s.r1 := h.regs .r1
  have h2 : t.r2 = s.r2 := h.regs .r2
  have h3 : t.r3 = s.r3 := h.regs .r3
  have h4 : t.r4 = s.r4 := h.regs .r4
  have h5 : t.r5 = s.r5 := h.regs .r5
  have h6 : t.r6 = s.r6 := h.regs .r6
  have h7 : t.r7 = s.r7 := h.regs .r7
  rw [State.withStorage, ← hcfg, ← hpc, ← h1, ← h2, ← h3, ← h4, ← h5, ← h6, ← h7, ← hc, ← hz]

/-- Whether two storages hold the same words shows in memory and parameters alone. -/
theorem SameWords.withStorage_congr {s u : State} {m : Memory} {o : ByteOrder}
    (h : SameWords s (s.withStorage m o)) (hmem : u.mem = s.mem) (hcfg : u.cfg = s.cfg) :
    SameWords u (u.withStorage m o) where
  regs := u.withStorage_readReg m o
  flags := ⟨rfl, rfl⟩
  params := rfl
  words a ha := by
    have hw := h.words a ha
    simp only [State.wordAt, State.byteAt, State.withStorage_mem, State.withStorage_cfg] at hw ⊢
    rw [hw, hmem, hcfg]
  written a ha := by
    have hw := h.written a ha
    simp only [wordWritten, State.withStorage_mem] at hw ⊢
    rw [hw, hmem]

theorem SameWords.advance {s t : State} (h : SameWords s t) : SameWords s.advance t.advance := by
  obtain ⟨m, o, rfl⟩ := h.exists_withStorage
  exact h.withStorage_congr (u := s.advance) rfl rfl

theorem SameWords.accessRefusal {s t : State} (h : SameWords s t) (a : Word) :
    t.accessRefusal a = s.accessRefusal a := by
  obtain ⟨m, o, rfl⟩ := h.exists_withStorage
  exact s.withStorage_accessRefusal m o a

/-- States that hold the same words fetch alike. -/
theorem SameWords.fetch_eq {s t : State} (h : SameWords s t) : t.fetch = s.fetch := by
  obtain ⟨m, o, rfl⟩ := h.exists_withStorage
  have hmap : (s.withStorage m o).cfg.mapped s.pc = s.cfg.mapped s.pc := rfl
  rw [State.fetch_eq, State.fetch_eq, State.withStorage_pc, hmap]
  by_cases hodd : s.pc.toNat % 2 = 1
  · rw [if_pos hodd, if_pos hodd]
  · have heven : s.pc.toNat % 2 = 0 := by omega
    rw [h.words s.pc heven, h.written s.pc heven]

end Sys2Proof.Safety

namespace Sys2Proof.Machine

open Sys2Proof.Safety

/-- The writes of SM, of the same registers into the same words, answer alike. -/
theorem storeRegs_sameOutcome {src src' : State} (hregs : ∀ q, src'.readReg q = src.readReg q)
    (rs : List Reg) (addr : Word) {t t' : State} (h : SameWords t t') :
    SameOutcome (finish (storeRegs src rs addr t)) (finish (storeRegs src' rs addr t')) := by
  induction rs generalizing addr t t' with
  | nil => exact h
  | cons r rs ih =>
    simp only [storeRegs, State.memWrite, h.accessRefusal, hregs]
    cases hr : t.accessRefusal addr with
    | some e => rfl
    | none =>
      obtain ⟨heven, -⟩ := State.accessible_of_none hr
      exact ih _ (sameWords_placeWord h heven)

/-- Outcomes that differ in their storage alone are alike when memory is as it was. -/
theorem sameOutcome_mapNext {s : State} {m : Memory} {o : ByteOrder}
    {x : Host.Outcome State Fault Refusal} (h : SameWords s (s.withStorage m o))
    (hx : ∀ u, x = .next u → u.mem = s.mem ∧ u.cfg = s.cfg) :
    SameOutcome x (mapNext (State.withStorage · m o) x) := by
  cases x with
  | next u =>
    obtain ⟨hmem, hcfg⟩ := hx u rfl
    exact h.withStorage_congr hmem hcfg
  | fault f => rfl
  | refused r => rfl

/-- Every instruction has the same outcome in states that hold the same words. -/
theorem exec_sameOutcome {s t : State} (h : SameWords s t) (i : Instr) :
    SameOutcome (exec i s) (exec i t) := by
  by_cases hs : isStore i
  · rcases hs with ⟨ra, rb, imm6, rfl⟩ | ⟨ra, mask8, rfl⟩
    · simp only [exec, execSw, State.memWrite, h.regs, h.advance.accessRefusal]
      cases hr : s.advance.accessRefusal (effectiveAddress (s.readReg rb) imm6) with
      | some e => rfl
      | none =>
        obtain ⟨heven, -⟩ := State.accessible_of_none hr
        exact sameWords_placeWord h.advance heven
    · simp only [exec, execSm, h.regs]
      exact storeRegs_sameOutcome h.regs _ _ h.advance
  · obtain ⟨m, o, rfl⟩ := h.exists_withStorage
    rw [exec_withStorage hs fun _ => h]
    exact sameOutcome_mapNext h fun u hu =>
      ⟨(exec_effect hu).mem_eq hs, (exec_effect hu).cfg_eq⟩

/-- Settles O24: the two machines fetch the same instruction, which has the same outcome. -/
theorem byteOrderIsUnobservable : Obligations.ByteOrderIsUnobservable := by
  unfold Obligations.ByteOrderIsUnobservable
  intro s t h
  cases hfetch : s.fetch with
  | error r =>
    rw [step_of_fetch_error hfetch, step_of_fetch_error (h.fetch_eq.trans hfetch)]
    rfl
  | ok i =>
    rw [step_of_fetch_ok hfetch, step_of_fetch_ok (h.fetch_eq.trans hfetch)]
    exact exec_sameOutcome h i

end Sys2Proof.Machine

/-! SUPPORT. Decoding and encoding (30_encoding.md): what the decoder can answer, said once, and that
it inverts the encoder over words and over bytes. -/

namespace Sys2Proof

open Sys2Proof.Safety

/-! ### Encodings put together from the fields of a word (R71) -/

section

variable {w : Word} {op : BitVec 4} (hop : (opcodeField w).toNat = op.toNat)
include hop

theorem encR_of_fields {kcz : BitVec 3} (hk : (kczField w).toNat = kcz.toNat) :
    encR op (raField w) (rbField w) (rcField w) kcz = w := by
  rw [← BitVec.eq_of_toNat_eq hop, ← BitVec.eq_of_toNat_eq hk, encR_fields]

theorem encI_of_fields : encI op (raField w) (rbField w) (imm6Field w) = w := by
  rw [← BitVec.eq_of_toNat_eq hop, encI_fields]

theorem encI_zero_of_fields (hlow : imm6Field w = 0) :
    encI op (raField w) (rbField w) 0#6 = w := by
  have h := encI_of_fields hop
  rwa [hlow] at h

theorem encJ_of_fields : encJ op (raField w) (imm9Field w) = w := by
  rw [← BitVec.eq_of_toNat_eq hop, encJ_fields]

theorem encM_of_fields (h8 : multipleBit w = false) :
    encJ op (raField w) (0#1 ++ mask8Field w) = w := by
  rw [← BitVec.eq_of_toNat_eq hop, encM_fields w h8]

end

/-! ### The rows of the reserved words, from the fields of a word (R72) -/

theorem and_f000_of_opcode {w : Word} {n : Nat} (hop : (opcodeField w).toNat = n) :
    w &&& 0xF000#16 = BitVec.ofNat 16 (n * 4096) := by
  apply BitVec.eq_of_toNat_eq
  have := w.isLt
  rw [opcodeField_toNat] at hop
  rw [and_f000_toNat, BitVec.toNat_ofNat]
  omega

theorem reservedWord_of_nand {w : Word} (hop : (opcodeField w).toNat = 2)
    (hk : (kczField w).toNat = 3 ∨ (kczField w).toNat = 7) : reservedWord w := by
  refine .inr (.inr (.inl (BitVec.eq_of_toNat_eq ?_)))
  have := w.isLt
  rw [opcodeField_toNat] at hop
  rw [kczField_toNat] at hk
  rw [and_f003_toNat, BitVec.toNat_ofNat]
  omega

theorem reservedWord_of_jlr {w : Word} (hop : (opcodeField w).toNat = 13) (hlow : imm6Field w ≠ 0) :
    reservedWord w := by
  refine .inr (.inr (.inr (.inl ⟨and_f000_of_opcode hop, fun h => hlow ?_⟩)))
  have h := congrArg BitVec.toNat h
  rw [and_003f_toNat] at h
  exact BitVec.eq_of_toNat_eq (by rw [imm6Field_toNat, Nat.div_one, h]; rfl)

theorem reservedWord_of_multiple {w : Word}
    (hop : (opcodeField w).toNat = 6 ∨ (opcodeField w).toNat = 7) (h8 : multipleBit w = true) :
    reservedWord w := by
  refine .inr (.inr (.inr (.inr (BitVec.eq_of_toNat_eq ?_))))
  have := w.isLt
  rw [opcodeField_toNat] at hop
  rw [multipleBit_eq, decide_eq_true_eq] at h8
  rw [and_e100_toNat, BitVec.toNat_ofNat]
  omega

/-! ### What the decoder can answer (R71, R72) -/

/-- What a decoder's answer says of the word: it is the instruction's encoding, or it is reserved. -/
def DecodesSoundly (w : Word) : Except Undecodable Instr → Prop
  | .ok i => encode i = w
  | .error _ => reservedWord w

theorem encode_decodeAdd {w : Word} (hop : (opcodeField w).toNat = 1) : encode (decodeAdd w) = w := by
  unfold decodeAdd
  split
  case h_8 =>
    have hlt := (kczField w).isLt
    simp only [imp_false] at *
    exact encR_of_fields hop (show (kczField w).toNat = 7 by omega)
  all_goals exact encR_of_fields hop ‹_›

theorem decodeNand_sound {w : Word} (hop : (opcodeField w).toNat = 2) :
    DecodesSoundly w (decodeNand w) := by
  unfold decodeNand
  split
  case h_7 =>
    have hlt := (kczField w).isLt
    simp only [imp_false] at *
    exact reservedWord_of_nand hop (by omega)
  all_goals exact encR_of_fields hop ‹_›

/-- The inversion of the decoder, along its cases by opcode. -/
theorem decode_sound (w : Word) : DecodesSoundly w (decode w) := by
  unfold decode
  split
  next hop => exact encI_of_fields hop
  next hop => exact encode_decodeAdd hop
  next hop => exact decodeNand_sound hop
  next hop => exact encJ_of_fields hop
  next hop => exact encI_of_fields hop
  next hop => exact encI_of_fields hop
  next hop =>
    split
    next h8 => exact reservedWord_of_multiple (.inl hop) h8
    next h8 => exact encM_of_fields hop (Bool.eq_false_iff.2 h8)
  next hop =>
    split
    next h8 => exact reservedWord_of_multiple (.inr hop) h8
    next h8 => exact encM_of_fields hop (Bool.eq_false_iff.2 h8)
  next hop => exact encI_of_fields hop
  next hop => exact encI_of_fields hop
  next hop => exact encI_of_fields hop
  next hop => exact .inl (and_f000_of_opcode hop)
  next hop => exact encJ_of_fields hop
  next hop =>
    split
    next hlow => exact encI_zero_of_fields hop hlow
    next hlow => exact reservedWord_of_jlr hop hlow
  next hop => exact .inr (.inl (and_f000_of_opcode hop))
  next =>
    have hlt := (opcodeField w).isLt
    simp only [imp_false] at *
    exact encJ_of_fields (show (opcodeField w).toNat = 15 by omega)

/-! ### The decoder inverts the encoder (R74) -/

theorem decode_encode (i : Instr) : decode (encode i) = .ok i := by
  cases i with
  | ada | adc | adz | awc | aca | acc | acz | acw => simp [encode, decode, decodeAdd]
  | ndu | ndc | ndz | ncu | ncc | ncz => simp [encode, decode, decodeNand]
  | adi | lw | sw | beq | blt | ble | jlr | lli | jal | jri | lm | sm => simp [encode, decode]

theorem encode_of_decode {w : Word} {i : Instr} (h : decode w = .ok i) : encode i = w := by
  have hw := decode_sound w
  rwa [h] at hw

theorem decode_eq_ok_iff {w : Word} {i : Instr} : decode w = .ok i ↔ encode i = w :=
  ⟨encode_of_decode, fun h => h ▸ decode_encode i⟩

/-! ### Over bytes (R43, R60) -/

theorem decodeBytes_cons_cons (o : ByteOrder) (lower upper : Byte) (bytes rest : List Byte)
    (i : Instr) : decodeBytes o (lower :: upper :: bytes) = .ok (i, rest) ↔
      decode (joinWord o lower upper) = .ok i ∧ bytes = rest := by
  simp only [decodeBytes]
  cases decode (joinWord o lower upper) <;> simp

theorem eq_joinWord_iff {o : ByteOrder} {w : Word} {lower upper : Byte} :
    w = joinWord o lower upper ↔ lower = (splitWord o w).1 ∧ upper = (splitWord o w).2 := by
  constructor
  · rintro rfl
    simp
  · rintro ⟨rfl, rfl⟩
    rw [Machine.joinWord_splitWord]

theorem decodeBytes_eq_ok_iff {o : ByteOrder} {bytes : List Byte} {i : Instr} {rest : List Byte} :
    decodeBytes o bytes = .ok (i, rest) ↔ bytes = encodeBytes o i ++ rest := by
  match bytes with
  | [] => simp [decodeBytes, encodeBytes]
  | [_] => simp [decodeBytes, encodeBytes]
  | lower :: upper :: bytes =>
    rw [decodeBytes_cons_cons, decode_eq_ok_iff, eq_joinWord_iff]
    simp [encodeBytes, and_assoc]

/-- Settles O2: the decoder answers an encoding's instruction, and the word of the instruction it
answers is the one it read; a byte sequence is its first word and the rest. -/
theorem decodeAndEncodeAreInverse : Obligations.DecodeAndEncodeAreInverse := by
  unfold Obligations.DecodeAndEncodeAreInverse
  exact ⟨fun _ _ => decode_eq_ok_iff, fun _ _ _ _ => decodeBytes_eq_ok_iff⟩

/-- Settles O1: each of the fifteen words is the encoding of the tabled instruction. -/
theorem sampleWordsDecodeAsTabled : Obligations.SampleWordsDecodeAsTabled := by
  unfold Obligations.SampleWordsDecodeAsTabled
  simp only [decode_eq_ok_iff]
  decide

/-! ### The encodings as integers (R74) -/

/-- `K ++ CZ` as the two terms of the formula. -/
theorem encR_formula {op : BitVec 4} {kcz : BitVec 3} {n k cz : Nat} (hop : op.toNat = n)
    (hkcz : kcz.toNat = k * 4 + cz) (ra rb rc : Reg) :
    (encR op ra rb rc kcz).toNat =
      n * 4096 + ra.num * 512 + rb.num * 64 + rc.num * 8 + k * 4 + cz := by
  rw [encR_toNat, hop, hkcz, Nat.add_assoc _ (k * 4)]

/-- The fixed bit 8 of LM and SM adds nothing. -/
theorem encM_toNat (op : BitVec 4) (ra : Reg) (mask8 : BitVec 8) :
    (encJ op ra (0#1 ++ mask8)).toNat = op.toNat * 4096 + ra.num * 512 + mask8.toNat := by
  rw [encJ_toNat, append_toNat]
  simp

/-- Settles O3: each row is the formula of its format. -/
theorem encodingIsTheIntegerFormula : Obligations.EncodingIsTheIntegerFormula := by
  unfold Obligations.EncodingIsTheIntegerFormula
  simp only [List.forall_mem_cons, List.not_mem_nil, false_imp_iff, implies_true,
    and_true]
  refine ⟨fun ra rb rc => ?_, fun ra rb imm6 => ?_, fun ra rb => ?_, fun ra imm9 => ?_,
    fun ra mask8 => ?_, decode_encode⟩
  · and_intros <;> exact encR_formula rfl rfl ra rb rc
  · and_intros <;> exact encI_toNat _ ra rb imm6
  · exact encI_toNat _ ra rb 0#6
  · and_intros <;> exact encJ_toNat _ ra imm9
  · and_intros <;> exact encM_toNat _ ra mask8

end Sys2Proof

/-! SUPPORT. The opcode rows (30_encoding.md R66) and the reserved words (R72) against the decoder,
and the step at a reserved word. -/

namespace Sys2Proof

open Sys2Proof.Machine Sys2Proof.Safety

/-! ### Rows and patterns that no word meets together -/

/-- The word is the row's value under the row's mask (R66). -/
def OpcodeRow.Meets (p : OpcodeRow) (w : Word) : Prop := w &&& p.mask = p.value

/-- No word meets both rows. -/
def OpcodeRow.Apart (p q : OpcodeRow) : Prop := ∀ w : Word, p.Meets w → ¬ q.Meets w

/-- The row and the pattern `v` under mask `m` differ in a bit that both fix. -/
abbrev OpcodeRow.DiffersFrom (p : OpcodeRow) (v m : Word) : Prop :=
  (p.value ^^^ v) &&& p.mask &&& m ≠ 0#16

theorem OpcodeRow.DiffersFrom.not_both {p : OpcodeRow} {v m w : Word} (h : p.DiffersFrom v m)
    (hp : p.Meets w) : w &&& m ≠ v := by
  rintro rfl
  refine h (BitVec.eq_of_getLsbD_eq fun k _ => ?_)
  rw [← hp]
  simp only [BitVec.getLsbD_and, BitVec.getLsbD_xor, BitVec.getLsbD_zero]
  cases w.getLsbD k <;> cases p.mask.getLsbD k <;> cases m.getLsbD k <;> rfl

theorem row_mem_opcodeRows (i : Instr) : i.row ∈ opcodeRows := by
  cases i <;> simp [opcodeRows, Instr.row]

theorem row_eq_of_meets {w : Word} {i j : Instr} (hi : i.row.Meets w) (hj : j.row.Meets w) :
    i.row = j.row := by
  have hsymm : Std.Symm OpcodeRow.Apart := ⟨fun _ _ h v hq hp => h v hp hq⟩
  have hapart : opcodeRows.Pairwise OpcodeRow.Apart :=
    opcodeRows_disjoint.imp fun h _ => OpcodeRow.DiffersFrom.not_both h
  by_contra hne
  exact hapart.forall (row_mem_opcodeRows i) (row_mem_opcodeRows j) hne w hi hj

/-- Every row differs in a fixed bit from each row of R72's table, but for JLR's, whose opcode is that
of the fourth reserved row and whose bits 5:0 are fixed at 0. -/
theorem opcodeRows_differ_from_reserved :
    ∀ p ∈ opcodeRows,
      p.DiffersFrom 0xB000#16 0xF000#16 ∧ p.DiffersFrom 0xE000#16 0xF000#16
        ∧ p.DiffersFrom 0x2003#16 0xF003#16 ∧ p.DiffersFrom 0x6100#16 0xE100#16
        ∧ (p.DiffersFrom 0xD000#16 0xF000#16
          ∨ (p.mask &&& 0x003F#16 = 0x003F#16 ∧ p.value &&& 0x003F#16 = 0#16)) := by
  decide

theorem not_reservedWord_of_meets {w : Word} {i : Instr} (h : i.row.Meets w) : ¬ reservedWord w := by
  obtain ⟨hB, hE, hnand, hmultiple, hjlr⟩ :=
    opcodeRows_differ_from_reserved i.row (row_mem_opcodeRows i)
  rintro (hw | hw | hw | ⟨hw, hlow⟩ | hw)
  · exact hB.not_both h hw
  · exact hE.not_both h hw
  · exact hnand.not_both h hw
  · rcases hjlr with hdiffers | ⟨hmask, hvalue⟩
    · exact hdiffers.not_both h hw
    · exact hlow (by rw [← hmask, ← BitVec.and_assoc, h, hvalue])
  · exact hmultiple.not_both h hw

/-! ### The rows and the reserved words against the decoder -/

theorem encode_meets_row (i : Instr) : i.row.Meets (encode i) := by
  cases i with
  | ada ra rb rc => exact Laws.EncodeMatchesRow.ada ra rb rc
  | adc ra rb rc => exact Laws.EncodeMatchesRow.adc ra rb rc
  | adz ra rb rc => exact Laws.EncodeMatchesRow.adz ra rb rc
  | awc ra rb rc => exact Laws.EncodeMatchesRow.awc ra rb rc
  | aca ra rb rc => exact Laws.EncodeMatchesRow.aca ra rb rc
  | acc ra rb rc => exact Laws.EncodeMatchesRow.acc ra rb rc
  | acz ra rb rc => exact Laws.EncodeMatchesRow.acz ra rb rc
  | acw ra rb rc => exact Laws.EncodeMatchesRow.acw ra rb rc
  | adi ra rb imm6 => exact Laws.EncodeMatchesRow.adi ra rb imm6
  | ndu ra rb rc => exact Laws.EncodeMatchesRow.ndu ra rb rc
  | ndc ra rb rc => exact Laws.EncodeMatchesRow.ndc ra rb rc
  | ndz ra rb rc => exact Laws.EncodeMatchesRow.ndz ra rb rc
  | ncu ra rb rc => exact Laws.EncodeMatchesRow.ncu ra rb rc
  | ncc ra rb rc => exact Laws.EncodeMatchesRow.ncc ra rb rc
  | ncz ra rb rc => exact Laws.EncodeMatchesRow.ncz ra rb rc
  | lli ra imm9 => exact Laws.EncodeMatchesRow.lli ra imm9
  | lw ra rb imm6 => exact Laws.EncodeMatchesRow.lw ra rb imm6
  | sw ra rb imm6 => exact Laws.EncodeMatchesRow.sw ra rb imm6
  | lm ra mask8 => exact Laws.EncodeMatchesRow.lm ra mask8
  | sm ra mask8 => exact Laws.EncodeMatchesRow.sm ra mask8
  | beq ra rb imm6 => exact Laws.EncodeMatchesRow.beq ra rb imm6
  | blt ra rb imm6 => exact Laws.EncodeMatchesRow.blt ra rb imm6
  | ble ra rb imm6 => exact Laws.EncodeMatchesRow.ble ra rb imm6
  | jal ra imm9 => exact Laws.EncodeMatchesRow.jal ra imm9
  | jlr ra rb => exact Laws.EncodeMatchesRow.jlr ra rb
  | jri ra imm9 => exact Laws.EncodeMatchesRow.jri ra imm9

theorem meets_row_of_decode {w : Word} {i : Instr} (h : decode w = .ok i) : i.row.Meets w :=
  encode_of_decode h ▸ encode_meets_row i

theorem reservedWord_of_decode {w : Word} {e : Undecodable} (h : decode w = .error e) :
    reservedWord w := by
  have hw := decode_sound w
  rwa [h] at hw

theorem decode_of_not_reservedWord {w : Word} (h : ¬ reservedWord w) : ∃ i, decode w = .ok i := by
  cases hd : decode w with
  | ok i => exact ⟨i, rfl⟩
  | error e => exact absurd (reservedWord_of_decode hd) h

theorem decode_error_iff {w : Word} : (∃ e, decode w = .error e) ↔ reservedWord w := by
  refine ⟨fun ⟨_, he⟩ => reservedWord_of_decode he, fun hw => ?_⟩
  cases hd : decode w with
  | ok i => exact absurd hw (not_reservedWord_of_meets (meets_row_of_decode hd))
  | error e => exact ⟨e, rfl⟩

theorem no_row_iff_reservedWord {w : Word} : (∀ i : Instr, ¬ i.row.Meets w) ↔ reservedWord w := by
  refine ⟨fun hnone => ?_, fun hw i hi => not_reservedWord_of_meets hi hw⟩
  by_contra hw
  obtain ⟨i, hi⟩ := decode_of_not_reservedWord hw
  exact hnone i (meets_row_of_decode hi)

/-- Settles O4: a word that meets a row is not reserved, so it decodes, to an instruction whose row it
meets, and no word meets two rows. -/
theorem opcodeRowsSelectTheInstruction : Obligations.OpcodeRowsSelectTheInstruction := by
  unfold Obligations.OpcodeRowsSelectTheInstruction
  refine ⟨fun _ _ => meets_row_of_decode, fun w i hi => ?_, fun _ _ _ => row_eq_of_meets,
    fun _ => no_row_iff_reservedWord⟩
  obtain ⟨j, hj⟩ := decode_of_not_reservedWord (not_reservedWord_of_meets hi)
  exact ⟨j, hj, row_eq_of_meets (meets_row_of_decode hj) hi⟩

/-! ### The step at a reserved word (R72, R221) -/

theorem step_of_decode_error {s : State} {e : Undecodable} (ha : Accessible s s.pc)
    (hwritten : wordWritten s s.pc = true) (hd : decode (s.wordAt s.pc) = .error e) :
    step s = .refused .reservedEncoding := by
  obtain ⟨heven, hmapped⟩ := ha
  exact step_of_fetch_error (by simp [State.fetch_eq, heven, hmapped, hwritten, hd])

/-- Settles O5: the decoder's errors are the reserved words, and the word at the PC is the one that
its two bytes join to. -/
theorem reservedWordsAreRejectedAndRefused : Obligations.ReservedWordsAreRejectedAndRefused := by
  unfold Obligations.ReservedWordsAreRejectedAndRefused
  refine ⟨fun _ => decode_error_iff, fun s lower upper heven hmapped hlower hupper hreserved => ?_⟩
  have hwritten : wordWritten s s.pc = true := by simp [wordWritten, hlower, hupper]
  obtain ⟨e, he⟩ := decode_error_iff.2 (State.wordAt_of_bytes hlower hupper ▸ hreserved)
  exact step_of_decode_error ⟨heven, hmapped⟩ hwritten he

end Sys2Proof

/-! SUPPORT. Assembly lines (30_encoding.md R75): what each operand reader accepts, said once, and that
reading a line inverts writing it. -/

namespace Sys2Proof

/-! ### What the operand readers accept -/

section

variable {ops : List AsmOperand} {i : Instr}

theorem parseR_eq_some_iff {f : Reg → Reg → Reg → Instr} :
    parseR f ops = some i ↔ ∃ ra rb rc, ops = [.reg rc, .reg ra, .reg rb] ∧ i = f ra rb rc := by
  constructor
  · intro h
    unfold parseR at h
    split at h
    next rc ra rb => exact ⟨ra, rb, rc, rfl, (Option.some.inj h).symm⟩
    next => cases h
  · rintro ⟨ra, rb, rc, rfl, rfl⟩
    rfl

theorem parseM_eq_some_iff {f : Reg → BitVec 8 → Instr} :
    parseM f ops = some i ↔ ∃ ra mask8, ops = [.reg ra, .mask mask8] ∧ i = f ra mask8 := by
  constructor
  · intro h
    unfold parseM at h
    split at h
    next ra mask8 => exact ⟨ra, mask8, rfl, (Option.some.inj h).symm⟩
    next => cases h
  · rintro ⟨ra, mask8, rfl, rfl⟩
    rfl

theorem parseRR_eq_some_iff {f : Reg → Reg → Instr} :
    parseRR f ops = some i ↔ ∃ ra rb, ops = [.reg ra, .reg rb] ∧ i = f ra rb := by
  constructor
  · intro h
    unfold parseRR at h
    split at h
    next ra rb => exact ⟨ra, rb, rfl, (Option.some.inj h).symm⟩
    next => cases h
  · rintro ⟨ra, rb, rfl, rfl⟩
    rfl

/-- The integers read as a signed 6-bit immediate are exactly the values of its field (R67). -/
theorem parseI_eq_some_iff {f : Reg → Reg → BitVec 6 → Instr} :
    parseI f ops = some i ↔
      ∃ x y imm6, ops = [.reg x, .reg y, .imm (BitVec.toInt imm6)] ∧ i = f x y imm6 := by
  constructor
  · intro h
    unfold parseI at h
    split at h
    next x y v =>
      split at h
      next hv =>
        obtain ⟨hlo, hhi⟩ := hv
        have hvalue : (BitVec.ofInt 6 v).toInt = v :=
          BitVec.toInt_ofInt_eq_self (by decide) hlo (Int.lt_add_one_of_le hhi)
        exact ⟨x, y, BitVec.ofInt 6 v, by rw [hvalue], (Option.some.inj h).symm⟩
      next => cases h
    next => cases h
  · rintro ⟨x, y, imm6, rfl, rfl⟩
    have hrange : -32 ≤ imm6.toInt ∧ imm6.toInt ≤ 31 :=
      ⟨imm6.le_toInt, Int.le_of_lt_add_one imm6.toInt_lt⟩
    rw [parseI, if_pos hrange, BitVec.ofInt_toInt]

/-- The integers read as a signed 9-bit immediate are exactly the values of its field (R68). -/
theorem parseJ_eq_some_iff {f : Reg → BitVec 9 → Instr} :
    parseJ f ops = some i ↔
      ∃ ra imm9, ops = [.reg ra, .imm (BitVec.toInt imm9)] ∧ i = f ra imm9 := by
  constructor
  · intro h
    unfold parseJ at h
    split at h
    next ra v =>
      split at h
      next hv =>
        obtain ⟨hlo, hhi⟩ := hv
        have hvalue : (BitVec.ofInt 9 v).toInt = v :=
          BitVec.toInt_ofInt_eq_self (by decide) hlo (Int.lt_add_one_of_le hhi)
        exact ⟨ra, BitVec.ofInt 9 v, by rw [hvalue], (Option.some.inj h).symm⟩
      next => cases h
    next => cases h
  · rintro ⟨ra, imm9, rfl, rfl⟩
    have hrange : -256 ≤ imm9.toInt ∧ imm9.toInt ≤ 255 :=
      ⟨imm9.le_toInt, Int.le_of_lt_add_one imm9.toInt_lt⟩
    rw [parseJ, if_pos hrange, BitVec.ofInt_toInt]

/-- The integers read as LLI's immediate are exactly the unsigned values of its field (R68). -/
theorem parseU_eq_some_iff {f : Reg → BitVec 9 → Instr} :
    parseU f ops = some i ↔
      ∃ ra imm9, ops = [.reg ra, .imm (BitVec.toNat imm9)] ∧ i = f ra imm9 := by
  constructor
  · intro h
    unfold parseU at h
    split at h
    next ra v =>
      split at h
      next hv =>
        have hvalue : ((BitVec.ofInt 9 v).toNat : Int) = v := by
          rw [BitVec.toNat_ofInt]
          omega
        exact ⟨ra, BitVec.ofInt 9 v, by rw [hvalue], (Option.some.inj h).symm⟩
      next => cases h
    next => cases h
  · rintro ⟨ra, imm9, rfl, rfl⟩
    have hrange : 0 ≤ (imm9.toNat : Int) ∧ (imm9.toNat : Int) ≤ 511 := by
      have := imm9.isLt
      omega
    rw [parseU, if_pos hrange, BitVec.ofInt_natCast, BitVec.ofNat_toNat, BitVec.setWidth_eq]

end

/-! ### Reading a line inverts writing it -/

/-- The second spelling of JAL (D24). -/
def lineJalr (ra : Reg) (imm9 : BitVec 9) : AsmLine := lineJ "jalr" ra imm9

theorem assemble_disassemble (i : Instr) : assemble (disassemble i) = some i := by
  cases i with
  | ada ra rb rc | adc ra rb rc | adz ra rb rc | awc ra rb rc | aca ra rb rc | acc ra rb rc
  | acz ra rb rc | acw ra rb rc | ndu ra rb rc | ndc ra rb rc | ndz ra rb rc | ncu ra rb rc
  | ncc ra rb rc | ncz ra rb rc => exact parseR_eq_some_iff.2 ⟨ra, rb, rc, rfl, rfl⟩
  | adi ra rb imm6 =>
    exact parseI_eq_some_iff (f := fun rb ra imm6 => .adi ra rb imm6) |>.2 ⟨rb, ra, imm6, rfl, rfl⟩
  | lw ra rb imm6 | sw ra rb imm6 | beq ra rb imm6 | blt ra rb imm6 | ble ra rb imm6 =>
    exact parseI_eq_some_iff.2 ⟨ra, rb, imm6, rfl, rfl⟩
  | lli ra imm9 => exact parseU_eq_some_iff.2 ⟨ra, imm9, rfl, rfl⟩
  | jal ra imm9 | jri ra imm9 => exact parseJ_eq_some_iff.2 ⟨ra, imm9, rfl, rfl⟩
  | lm ra mask8 | sm ra mask8 => exact parseM_eq_some_iff.2 ⟨ra, mask8, rfl, rfl⟩
  | jlr ra rb => exact parseRR_eq_some_iff.2 ⟨ra, rb, rfl, rfl⟩

theorem assemble_lineJalr (ra : Reg) (imm9 : BitVec 9) :
    assemble (lineJalr ra imm9) = some (.jal ra imm9) :=
  parseJ_eq_some_iff.2 ⟨ra, imm9, rfl, rfl⟩

/-- The lines read as an instruction, along the mnemonics. -/
theorem line_of_assemble {l : AsmLine} {i : Instr} (h : assemble l = some i) :
    l = disassemble i ∨ ∃ ra imm9, l = lineJalr ra imm9 ∧ i = .jal ra imm9 := by
  obtain ⟨m, ops⟩ := l
  unfold assemble operandsOf at h
  dsimp only at h
  split at h
  case h_9 => -- adi
    obtain ⟨rb, ra, imm6, rfl, rfl⟩ := parseI_eq_some_iff.1 h
    exact .inl rfl
  case h_16 => -- lli
    obtain ⟨ra, imm9, rfl, rfl⟩ := parseU_eq_some_iff.1 h
    exact .inl rfl
  case h_17 | h_18 | h_21 | h_22 | h_23 => -- lw, sw, beq, blt, ble
    obtain ⟨ra, rb, imm6, rfl, rfl⟩ := parseI_eq_some_iff.1 h
    exact .inl rfl
  case h_19 | h_20 => -- lm, sm
    obtain ⟨ra, mask8, rfl, rfl⟩ := parseM_eq_some_iff.1 h
    exact .inl rfl
  case h_24 | h_27 => -- jal, jri
    obtain ⟨ra, imm9, rfl, rfl⟩ := parseJ_eq_some_iff.1 h
    exact .inl rfl
  case h_25 => -- jalr
    obtain ⟨ra, imm9, rfl, rfl⟩ := parseJ_eq_some_iff.1 h
    exact .inr ⟨ra, imm9, rfl, rfl⟩
  case h_26 => -- jlr
    obtain ⟨ra, rb, rfl, rfl⟩ := parseRR_eq_some_iff.1 h
    exact .inl rfl
  case h_28 => cases h -- any other mnemonic
  all_goals -- the R-format rows
    obtain ⟨ra, rb, rc, rfl, rfl⟩ := parseR_eq_some_iff.1 h
    exact .inl rfl

theorem assemble_eq_some_iff {l : AsmLine} {i : Instr} :
    assemble l = some i ↔
      l = disassemble i ∨ ∃ ra imm9, l = lineJalr ra imm9 ∧ i = .jal ra imm9 := by
  refine ⟨line_of_assemble, ?_⟩
  rintro (rfl | ⟨ra, imm9, rfl, rfl⟩)
  · exact assemble_disassemble i
  · exact assemble_lineJalr ra imm9

/-- Settles O6: the rows are `disassemble`'s own, and reading a line inverts writing it. -/
theorem assemblyLinesStandForTheirInstruction :
    Obligations.AssemblyLinesStandForTheirInstruction := by
  unfold Obligations.AssemblyLinesStandForTheirInstruction
  simp only [List.forall_mem_cons, List.not_mem_nil, false_imp_iff, implies_true, and_true]
  refine ⟨fun ra rb rc => ?_, fun _ _ _ => rfl, fun ra rb imm6 => ?_, fun _ _ => ⟨rfl, rfl, rfl⟩,
    fun _ _ => ⟨rfl, rfl⟩, fun _ _ => rfl, fun _ _ => assemble_eq_some_iff⟩
  · and_intros <;> rfl
  · and_intros <;> rfl

end Sys2Proof

/-! SUPPORT. Additions as integer sums (41_add.md): what an addition leaves when its exact sum
is `n`, which sum each instruction of the ADD group forms, and the chains of two additions. -/

namespace Sys2Proof.Machine

open Sys2Proof.Safety

/-- What an addition into `rd` with the exact sum `n` leaves: the low 16 bits, the carry, the zero
test and everything else as before (R26, R100). -/
structure Adds (rd : Reg) (n : Nat) (s t : State) : Prop where
  result : (t.readReg rd).toNat = n % 65536
  carry : t.c = decide (65536 ≤ n)
  zero : t.z = decide (n % 65536 = 0)
  regs : SameRegsBut [rd] s t
  goesOn : rd ≠ .r0 → GoesOn s t
  bytes : SameBytes s t
  cfg : t.cfg = s.cfg

/-- What an addition that does not execute leaves: only the PC has moved (R100). -/
structure OnlyGoesOn (s t : State) : Prop where
  flags : SameFlags s t
  regs : SameRegsBut [] s t
  goesOn : GoesOn s t
  bytes : SameBytes s t
  cfg : t.cfg = s.cfg

theorem onlyGoesOn_advance (s : State) : OnlyGoesOn s s.advance where
  flags := ⟨rfl, rfl⟩
  regs q h0 _ := State.readReg_advance_ne s q h0
  goesOn := State.nextPc_toNat s
  bytes _ := rfl
  cfg := rfl

theorem adds_writeSum (s : State) (rd : Reg) (a b : Word) (cin : Bool) :
    Adds rd (a.toNat + b.toNat + cin.toNat) s (writeSum rd (add17 a b cin) s) where
  result := by rw [writeSum_readReg, sumOf_add17]
  carry := by rw [writeSum_c, carryOf_add17]
  zero := by rw [writeSum_z, zeroOf_eq, sumOf_add17]
  regs q h0 hq := writeSum_readReg_ne s rd q _ h0 (List.mem_singleton.not.1 hq)
  goesOn h0 := by rw [GoesOn, writeSum_pc s rd _ h0, State.nextPc_toNat]
  bytes a := by rw [writeSum_mem]
  cfg := writeSum_cfg s rd _

theorem Adds.readReg_of_ne {rd q : Reg} {n : Nat} {s t : State} (h : Adds rd n s t) (h0 : q ≠ .r0)
    (hne : rd ≠ q) : t.readReg q = s.readReg q :=
  h.regs q h0 (List.mem_singleton.not.2 hne.symm)

/-! ### The ADD group -/

theorem complement_toNat (v : Word) : (complementIf true v).toNat = 65535 - v.toNat :=
  BitVec.toNat_not

theorem carryIn_withCarry (s : State) : (CZ.withCarry.carryIn s).toNat = if s.c then 1 else 0 :=
  Bool.cond_eq_ite s.c 1 0

/-- The group's common rule: the sum of RA, the operand `b` that K makes of RB, and the carry in, or
only the advance, as the condition says (R100). -/
theorem addGroup_outcome (s : State) {k : Bool} (cz : CZ) (ra : Reg) {rb : Reg} (rc : Reg)
    {b cin : Nat} (hb : (complementIf k (s.readReg rb)).toNat = b)
    (hcin : (cz.carryIn s).toNat = cin) :
    ∃ t, addGroup k cz ra rb rc s = .next t
      ∧ (cz.holds s = true → Adds rc ((s.readReg ra).toNat + b + cin) s t)
      ∧ (cz.holds s = false → OnlyGoesOn s t) := by
  subst hb hcin
  cases hcz : cz.holds s with
  | true =>
    exact ⟨_, if_pos hcz, fun _ => adds_writeSum s rc _ _ _, fun h => absurd h Bool.noConfusion⟩
  | false =>
    exact ⟨_, addGroup_of_not_holds hcz k ra rb rc, fun h => absurd h Bool.noConfusion,
      fun _ => onlyGoesOn_advance s⟩

/-- Settles O26: each of the eight is the group's common rule for its K and CZ. -/
theorem addGroupResultFlagsAndFrame : Obligations.AddGroupResultFlagsAndFrame := by
  unfold Obligations.AddGroupResultFlagsAndFrame
  intro s ra rb rc i executes b cin hi
  have houtcome : ∃ t, exec i s = .next t
      ∧ (executes = true → Adds rc ((s.readReg ra).toNat + b + cin) s t)
      ∧ (executes = false → OnlyGoesOn s t) := by
    have hnot := complement_toNat (s.readReg rb)
    have hcin := carryIn_withCarry s
    simp only [List.mem_cons, Prod.mk.injEq, List.not_mem_nil, or_false] at hi
    rcases hi with ⟨rfl, rfl, rfl, rfl⟩ | ⟨rfl, rfl, rfl, rfl⟩ | ⟨rfl, rfl, rfl, rfl⟩ |
      ⟨rfl, rfl, rfl, rfl⟩ | ⟨rfl, rfl, rfl, rfl⟩ | ⟨rfl, rfl, rfl, rfl⟩ |
      ⟨rfl, rfl, rfl, rfl⟩ | ⟨rfl, rfl, rfl, rfl⟩
    · exact addGroup_outcome s .always ra rc (k := false) rfl rfl
    · exact addGroup_outcome s .ifCarry ra rc (k := false) rfl rfl
    · exact addGroup_outcome s .ifZero ra rc (k := false) rfl rfl
    · exact addGroup_outcome s .withCarry ra rc (k := false) rfl hcin
    · exact addGroup_outcome s .always ra rc hnot rfl
    · exact addGroup_outcome s .ifCarry ra rc hnot rfl
    · exact addGroup_outcome s .ifZero ra rc hnot rfl
    · exact addGroup_outcome s .withCarry ra rc hnot hcin
  obtain ⟨t, ht, hadds, hgoes⟩ := houtcome
  cases executes with
  | true =>
    obtain ⟨hresult, hc, hz, hregs, hgoesOn, hbytes, hcfg⟩ := hadds rfl
    exact ⟨t, ht, hbytes, hcfg, fun _ => ⟨hresult, hc, hz, hregs, hgoesOn⟩, Bool.noConfusion⟩
  | false =>
    obtain ⟨hflags, hregs, hgoesOn, hbytes, hcfg⟩ := hgoes rfl
    exact ⟨t, ht, hbytes, hcfg, Bool.noConfusion, fun _ => ⟨hflags, hregs, hgoesOn⟩⟩

/-- Settles O27: ADI is the addition of the sign-extended immediate, without a carry in. -/
theorem addImmediateResultFlagsAndFrame : Obligations.AddImmediateResultFlagsAndFrame := by
  unfold Obligations.AddImmediateResultFlagsAndFrame
  intro s ra rb imm6 n hn
  have hadds := adds_writeSum s rb (s.readReg ra) (sext6 imm6) false
  rw [sext6_toNat, Bool.toNat_false, Nat.add_zero, ← hn] at hadds
  obtain ⟨hresult, hc, hz, hregs, hgoesOn, hbytes, hcfg⟩ := hadds
  exact ⟨_, rfl, hresult, hc, hz, hregs, hgoesOn, hbytes, hcfg⟩

/-! ### The four unconditional additions -/

theorem exec_ada_adds (s : State) (ra rb rc : Reg) : ∃ t, exec (.ada ra rb rc) s = .next t
    ∧ Adds rc ((s.readReg ra).toNat + (s.readReg rb).toNat) s t :=
  ⟨_, rfl, adds_writeSum s rc _ _ false⟩

theorem exec_awc_adds (s : State) (ra rb rc : Reg) : ∃ t, exec (.awc ra rb rc) s = .next t
    ∧ Adds rc ((s.readReg ra).toNat + (s.readReg rb).toNat + s.c.toNat) s t :=
  ⟨_, rfl, adds_writeSum s rc _ _ s.c⟩

theorem exec_aca_adds (s : State) (ra rb rc : Reg) : ∃ t, exec (.aca ra rb rc) s = .next t
    ∧ Adds rc ((s.readReg ra).toNat + (65535 - (s.readReg rb).toNat)) s t := by
  rw [← complement_toNat]
  exact ⟨_, rfl, adds_writeSum s rc _ _ false⟩

theorem exec_acw_adds (s : State) (ra rb rc : Reg) : ∃ t, exec (.acw ra rb rc) s = .next t
    ∧ Adds rc ((s.readReg ra).toNat + (65535 - (s.readReg rb).toNat) + s.c.toNat) s t := by
  rw [← complement_toNat]
  exact ⟨_, rfl, adds_writeSum s rc _ _ s.c⟩

/-- Without a carry to add, ACW is ACA (R108). -/
theorem exec_acw_of_carry_clear {s : State} (h : s.c = false) (ra rb rc : Reg) :
    exec (.acw ra rb rc) s = exec (.aca ra rb rc) s := by
  have hcin : CZ.withCarry.carryIn s = CZ.always.carryIn s := h
  simp only [exec, execAcw, execAca, addGroup, CZ.holds, hcin]

/-- Settles O28: adding the complement is subtracting one more than the operand, and the sum passes
2^16 exactly when RB is the smaller. -/
theorem complementAddSubtractsLessOne : Obligations.ComplementAddSubtractsLessOne := by
  unfold Obligations.ComplementAddSubtractsLessOne
  intro s ra rb rc
  obtain ⟨t, ht, hadds⟩ := exec_aca_adds s ra rb rc
  have hresult := hadds.result
  have hb := (s.readReg rb).isLt
  refine ⟨t, ht, by bv_omega, ?_, ?_⟩
  · rw [hadds.carry]
    exact decide_eq_decide.2 (by omega)
  · rintro rfl
    have hsum : (s.readReg ra).toNat + (65535 - (s.readReg ra).toNat) = 65535 := by omega
    rw [hsum] at hadds
    exact ⟨BitVec.eq_of_toNat_eq hadds.result, hadds.carry, hadds.zero⟩

/-- Settles O29: with C set the complement and the carry make the two's complement of RB. -/
theorem complementAddWithCarrySubtracts : Obligations.ComplementAddWithCarrySubtracts := by
  unfold Obligations.ComplementAddWithCarrySubtracts
  intro s ra rb rc
  obtain ⟨t, ht, hadds⟩ := exec_acw_adds s ra rb rc
  refine ⟨t, ht, fun hc => ?_, fun hc => exec_acw_of_carry_clear hc ra rb rc ▸ ht⟩
  rw [hc, Bool.toNat_true] at hadds
  have hresult := hadds.result
  have ha := (s.readReg ra).isLt
  have hb := (s.readReg rb).isLt
  refine ⟨by bv_omega, ?_, ?_⟩
  · rw [hadds.carry]
    exact decide_eq_decide.2 (by omega)
  · rw [hadds.zero, decide_eq_decide, ← BitVec.toNat_inj]
    omega

/-! ### Chains of two additions -/

/-- A sum over the low halves, then one over the high halves that takes in its carry, is one sum
over 32 bits (R104, R108). -/
theorem Adds.chain {s t u : State} {dlo dhi : Reg} {low high : Nat} (hlow : Adds dlo low s t)
    (hhigh : Adds dhi (high + t.c.toNat) t u) (hlt : low < 131072) (h0 : dlo ≠ .r0)
    (hne : dhi ≠ dlo) :
    pairValue u dhi dlo = (high * 65536 + low) % 4294967296
      ∧ u.c = decide (4294967296 ≤ high * 65536 + low) := by
  have hkept : u.readReg dlo = t.readReg dlo := hhigh.readReg_of_ne h0 hne
  have hcarry : t.c.toNat = low / 65536 := by
    rw [hlow.carry]
    by_cases hover : 65536 ≤ low
    · rw [decide_eq_true hover, Bool.toNat_true]
      omega
    · rw [decide_eq_false hover, Bool.toNat_false]
      omega
  rw [pairValue, hkept, hlow.result, hhigh.result, hhigh.carry, hcarry]
  exact ⟨by omega, decide_eq_decide.2 (by omega)⟩

/-- Settles O30: the two exact sums chain to that of the pairs. -/
theorem carryChainsAddThirtyTwoBits : Obligations.CarryChainsAddThirtyTwoBits := by
  unfold Obligations.CarryChainsAddThirtyTwoBits
  intro s alo ahi blo bhi dlo dhi h0 ha0 hb0 hne_a hne_b hne
  obtain ⟨t, ht, hlow⟩ := exec_ada_adds s alo blo dlo
  obtain ⟨u, hu, hhigh⟩ := exec_awc_adds t ahi bhi dhi
  rw [hlow.readReg_of_ne ha0 hne_a, hlow.readReg_of_ne hb0 hne_b] at hhigh
  have halo := (s.readReg alo).isLt
  have hblo := (s.readReg blo).isLt
  obtain ⟨hpair, hc⟩ := hlow.chain hhigh (by omega) h0 hne
  refine ⟨t, u, ht, hu, hpair.trans ?_, hc.trans (decide_eq_decide.2 ?_)⟩
    <;> simp only [pairValue] <;> omega

/-- Settles O31: the two sums with the complemented halves chain to `2^32` more than the difference
of the pairs, which passes `2^32` exactly when nothing is borrowed. -/
theorem carryChainsSubtractThirtyTwoBits : Obligations.CarryChainsSubtractThirtyTwoBits := by
  unfold Obligations.CarryChainsSubtractThirtyTwoBits
  intro s alo ahi blo bhi dlo dhi hset h0 ha0 hb0 hne_a hne_b hne
  obtain ⟨t, ht, hlow⟩ := exec_acw_adds s alo blo dlo
  obtain ⟨u, hu, hhigh⟩ := exec_acw_adds t ahi bhi dhi
  rw [hset, Bool.toNat_true] at hlow
  rw [hlow.readReg_of_ne ha0 hne_a, hlow.readReg_of_ne hb0 hne_b] at hhigh
  have halo := (s.readReg alo).isLt
  have hblo := (s.readReg blo).isLt
  have hbhi := (s.readReg bhi).isLt
  obtain ⟨hpair, hc⟩ := hlow.chain hhigh (by omega) h0 hne
  refine ⟨t, u, ht, hu, hpair.trans ?_, hc.trans (decide_eq_decide.2 ?_)⟩
    <;> simp only [pairValue] <;> omega

end Sys2Proof.Machine

/-! SUPPORT. The NAND group bit by bit (42_nand.md): what a written and zero-tested result leaves,
and the complement and the OR that NDU and NCU form. -/

namespace Sys2Proof.Machine

open Sys2Proof.Safety

/-- What writing `v` to `rd` with its zero test leaves: C and all the rest as before (R26, R120). -/
structure ZeroTested (rd : Reg) (v : Word) (s t : State) : Prop where
  result : t.readReg rd = v
  zero : t.z = decide (v = 0#16)
  carry : t.c = s.c
  regs : SameRegsBut [rd] s t
  goesOn : rd ≠ .r0 → GoesOn s t
  bytes : SameBytes s t
  cfg : t.cfg = s.cfg

theorem zeroTested_writeZeroTested (s : State) (rd : Reg) (v : Word) :
    ZeroTested rd v s (writeZeroTested rd v s) where
  result := writeZeroTested_readReg s rd v
  zero := writeZeroTested_z s rd v
  carry := writeZeroTested_c s rd v
  regs q h0 hq := writeZeroTested_readReg_ne s rd q v h0 (List.mem_singleton.not.1 hq)
  goesOn h0 := by rw [GoesOn, writeZeroTested_pc s rd v h0, State.nextPc_toNat]
  bytes a := by rw [writeZeroTested_mem]
  cfg := writeZeroTested_cfg s rd v

/-! ### The operation on words -/

/-- Complementing when K = 1 is an exclusive or of every bit with K (R120). -/
theorem getLsbD_complementIf (k : Bool) (v : Word) {j : Nat} (hj : j < 16) :
    (complementIf k v).getLsbD j = (v.getLsbD j != k) := by
  cases k with
  | true => simp [complementIf, hj]
  | false => simp [complementIf]

theorem getLsbD_nandOf (a b : Word) {j : Nat} (hj : j < 16) :
    (nandOf a b).getLsbD j = !(a.getLsbD j && b.getLsbD j) := by
  simp [nandOf, hj]

theorem nandOf_self (a : Word) : nandOf a a = ~~~a := by
  rw [nandOf, BitVec.and_self]

/-- By De Morgan, the NAND with a complemented operand is an OR (R124). -/
theorem nandOf_complement (a b : Word) : nandOf a (complementIf true b) = ~~~a ||| b := by
  rw [nandOf, complementIf, if_pos rfl, BitVec.not_and, BitVec.not_not]

theorem complement_or_eq_zero_iff {a b : Word} :
    ~~~a ||| b = 0#16 ↔ a = 0xFFFF#16 ∧ b = 0x0000#16 := by
  rw [BitVec.or_eq_zero_iff, BitVec.not_eq_comm]
  rfl

/-! ### The NAND group -/

/-- The group's common rule: the NAND of RA and the operand that K makes of RB, or only the advance,
as the condition says (R120). -/
theorem nandIf_outcome (executes k : Bool) (ra rb rc : Reg) (s : State) :
    ∃ t, nandIf executes k ra rb rc s = .next t
      ∧ (executes = true →
          ZeroTested rc (nandOf (s.readReg ra) (complementIf k (s.readReg rb))) s t)
      ∧ (executes = false → OnlyGoesOn s t) := by
  cases executes with
  | true => exact ⟨_, rfl, fun _ => zeroTested_writeZeroTested s rc _, Bool.noConfusion⟩
  | false =>
    exact ⟨_, nandIf_of_not_executes rfl k ra rb rc s, Bool.noConfusion,
      fun _ => onlyGoesOn_advance s⟩

/-- Settles O32: each of the six is the group's common rule for its condition and K, and a NAND has
bit by bit the NAND of its operands' bits. -/
theorem nandGroupResultFlagsAndFrame : Obligations.NandGroupResultFlagsAndFrame := by
  unfold Obligations.NandGroupResultFlagsAndFrame
  refine ⟨fun _ _ _ _ _ => rfl, fun s ra rb rc i executes k hi => ?_⟩
  have hexec : exec i s = nandIf executes k ra rb rc s := by
    simp only [List.mem_cons, Prod.mk.injEq, List.not_mem_nil, or_false] at hi
    rcases hi with ⟨rfl, rfl, rfl⟩ | ⟨rfl, rfl, rfl⟩ | ⟨rfl, rfl, rfl⟩ | ⟨rfl, rfl, rfl⟩ |
      ⟨rfl, rfl, rfl⟩ | ⟨rfl, rfl, rfl⟩ <;> rfl
  obtain ⟨t, ht, hwrites, hgoes⟩ := nandIf_outcome executes k ra rb rc s
  rw [hexec]
  cases executes with
  | true =>
    obtain ⟨hresult, hz, hc, hregs, hgoesOn, hbytes, hcfg⟩ := hwrites rfl
    refine ⟨t, ht, hbytes, hcfg, hc, fun _ => ⟨fun j hj => ?_, hresult ▸ hz, hregs, hgoesOn⟩,
      Bool.noConfusion⟩
    rw [hresult, getLsbD_nandOf _ _ hj, getLsbD_complementIf k _ hj]
  | false =>
    obtain ⟨⟨hc, hz⟩, hregs, hgoesOn, hbytes, hcfg⟩ := hgoes rfl
    exact ⟨t, ht, hbytes, hcfg, hc, Bool.noConfusion, fun _ => ⟨hz, hregs, hgoesOn⟩⟩

/-- Settles O33: a NAND of a word with itself is its complement, one with a complemented operand is an
OR, and that OR is zero exactly when both its parts are. -/
theorem nandComplementsAndNcuIsOr : Obligations.NandComplementsAndNcuIsOr := by
  unfold Obligations.NandComplementsAndNcuIsOr
  intro s ra rb rc
  obtain ⟨t, ht, hndu, -⟩ := nandIf_outcome true false ra ra rc s
  obtain ⟨u, hu, hncu, -⟩ := nandIf_outcome true true ra rb rc s
  rw [nandOf_complement] at hncu
  refine ⟨⟨t, ht, (hndu rfl).result.trans (nandOf_self _)⟩, u, hu, (hncu rfl).result, ?_⟩
  rw [(hncu rfl).zero, decide_eq_true_iff, complement_or_eq_zero_iff]

end Sys2Proof.Machine

/-! SUPPORT. LLI, LW and SW where they have a meaning (43_lli_load_store.md): the word they move, and
what they leave as it was. -/

namespace Sys2Proof.Machine

open Sys2Proof.Safety

/-- Settles O34: the immediate goes to the register, and LLI's effect reaches nothing else but the
PC. -/
theorem loadLowerImmediateResultAndFrame : Obligations.LoadLowerImmediateResultAndFrame := by
  unfold Obligations.LoadLowerImmediateResultAndFrame
  intro s ra imm9
  have h : exec (.lli ra imm9) s = .next (s.advance.writeReg ra (zext9 imm9)) := rfl
  have heffect := exec_effect h
  have hmem := heffect.mem_eq (not_isStore_of_touchesMemory rfl)
  refine ⟨_, h, ?_, flagsAreWrittenAsTabled _ _ _ h, heffect.sameRegsBut, fun h0 => ?_,
    fun a => by rw [hmem], heffect.cfg_eq⟩
  · rw [State.readReg_writeReg_same, zext9_toNat]
  · have hr0 : .r0 ∉ destinations (.lli ra imm9) := List.mem_singleton.not.2 h0.symm
    exact otherInstructionsGoOnAtTheNextWord _ _ _ rfl hr0 h

/-! ### The effective address (R143) -/

theorem effectiveAddress_eq_ofInt (base : Word) (imm6 : BitVec 6) :
    effectiveAddress base imm6 = BitVec.ofInt 16 (base.toNat + imm6.toInt) := by
  have hsum := effectiveAddress_toNat base imm6
  apply BitVec.eq_of_toNat_eq
  rw [BitVec.toNat_ofInt]
  omega

/-- Neither the sign of the displacement nor the reduction modulo 2^16 changes a parity. -/
theorem effectiveAddress_parity (base : Word) (imm6 : BitVec 6) :
    (effectiveAddress base imm6).toNat % 2 = (base.toNat + imm6.toNat) % 2 := by
  have hsum := effectiveAddress_toNat base imm6
  rw [BitVec.toInt_eq_toNat_cond] at hsum
  split at hsum <;> omega

/-- Settles O35: a sum is even exactly when its terms have the same parity. -/
theorem effectiveAddressIsBasePlusDisplacement :
    Obligations.EffectiveAddressIsBasePlusDisplacement := by
  unfold Obligations.EffectiveAddressIsBasePlusDisplacement
  intro base imm6
  refine ⟨effectiveAddress_toNat base imm6, ?_⟩
  rw [effectiveAddress_parity]
  omega

/-! ### The access at an even, mapped address (R141, R142) -/

/-- Settles O36: LW writes the word it reads with its zero test. -/
theorem loadWordResultFlagsAndFrame : Obligations.LoadWordResultFlagsAndFrame := by
  unfold Obligations.LoadWordResultFlagsAndFrame
  intro s ra rb imm6 ea hea ha
  rw [← effectiveAddress_eq_ofInt] at hea
  subst hea
  obtain ⟨hresult, hz, hc, hregs, hgoesOn, hbytes, hcfg⟩ :=
    zeroTested_writeZeroTested s ra (s.wordAt (effectiveAddress (s.readReg rb) imm6))
  exact ⟨_, exec_lw_next.2 ⟨ha, rfl⟩, hresult, hz, hc, hregs, hgoesOn, hbytes, hcfg⟩

/-- Settles O37: the address holds RA's word, and SW's effect reaches nothing but that word and the
PC. -/
theorem storeWordResultAndFrame : Obligations.StoreWordResultAndFrame := by
  unfold Obligations.StoreWordResultAndFrame
  rintro s ra rb imm6 ea rfl ha
  obtain ⟨t, h⟩ : ∃ t, exec (.sw ra rb imm6) s = .next t := ⟨_, exec_sw_next.2 ⟨ha, rfl⟩⟩
  obtain ⟨-, hwritten, hword⟩ := exec_sw_holdsWord h
  have heffect := exec_effect h
  refine ⟨t, h, hword, hwritten, fun a hlower hupper => ?_, heffect.sameRegsBut, ?_,
    flagsAreWrittenAsTabled _ _ _ h, heffect.cfg_eq⟩
  · refine exec_storedBy_frame h fun w hw => ?_
    rw [mem_storedBy_sw.1 hw]
    exact ⟨hlower, hupper⟩
  · exact otherInstructionsGoOnAtTheNextWord _ _ _ rfl List.not_mem_nil h

end Sys2Proof.Machine

/-! SUPPORT. LM and SM where every address of their sequence can be accessed
(44_load_store_multiple.md): the order of transfer, the words moved and what stays as it was, and the
two as a pair. -/

namespace Sys2Proof.Machine

open Sys2Proof.Safety

/-! ### The order of transfer (R160) -/

/-- Mask bit `b` stands for register R(7-b). -/
theorem mem_maskRegs {b : Nat} {q : Reg} : (b, q) ∈ maskRegs ↔ b = 7 - q.num := by
  cases q <;> simp [maskRegs, Reg.num]

theorem mem_transferOrder {mask8 : BitVec 8} {q : Reg} :
    q ∈ transferOrder mask8 ↔ mask8.getLsbD (7 - q.num) = true := by
  simp [transferOrder, mem_maskRegs]

/-- Selecting from the eight registers keeps their order. -/
theorem transferOrder_falling (mask8 : BitVec 8) :
    (transferOrder mask8).Pairwise fun p q => q.num < p.num :=
  (show (maskRegs.map Prod.snd).Pairwise fun p q => q.num < p.num by decide).sublist
    (List.filter_sublist.map Prod.snd)

/-- Settles O43: which registers a mask selects, and their order. -/
theorem transferOrderIsFromSevenDownToZero : Obligations.TransferOrderIsFromSevenDownToZero := by
  unfold Obligations.TransferOrderIsFromSevenDownToZero
  exact fun mask8 => ⟨fun _ => mem_transferOrder, transferOrder_falling mask8⟩

/-! ### The transfers at even, mapped addresses (R161, R162) -/

/-- Settles O44: each register receives the word of its place, and LM's effect reaches nothing but
those registers and the PC. -/
theorem loadMultipleResultAndFrame : Obligations.LoadMultipleResultAndFrame := by
  unfold Obligations.LoadMultipleResultAndFrame
  intro s ra mask8 haccess
  obtain ⟨t, hload⟩ := loadRegs_ok s.advance haccess
  have h : exec (.lm ra mask8) s = .next t := exec_lm_next.2 hload
  have heffect := exec_effect h
  have hmem := heffect.mem_eq (by simp [isStore])
  exact ⟨t, h, loadRegs_values (transferOrder_nodup mask8) hload, heffect.sameRegsBut,
    fun h0 => otherInstructionsGoOnAtTheNextWord (.lm ra mask8) s t rfl h0 h,
    flagsAreWrittenAsTabled _ _ _ h, fun a => by rw [hmem], heffect.cfg_eq⟩

/-- Settles O45: each place holds its register's word, and SM's effect reaches nothing but those words
and the PC. -/
theorem storeMultipleResultAndFrame : Obligations.StoreMultipleResultAndFrame := by
  unfold Obligations.StoreMultipleResultAndFrame
  intro s ra mask8 haccess
  obtain ⟨t, hstore⟩ := storeRegs_ok s (t := s.advance) haccess
  have h : exec (.sm ra mask8) s = .next t := exec_sm_next.2 hstore
  have heffect := exec_effect h
  obtain ⟨-, hframe⟩ := storeRegs_frame hstore
  refine ⟨t, h, fun k q hk => ?_, hframe, heffect.sameRegsBut,
    otherInstructionsGoOnAtTheNextWord _ _ _ rfl List.not_mem_nil h,
    flagsAreWrittenAsTabled _ _ _ h, heffect.cfg_eq⟩
  obtain ⟨-, hwritten, hword⟩ := exec_sm_holdsWord h hk
  exact ⟨hword, hwritten⟩

/-! ### LM after SM (R163) -/

/-- What an address holds is a matter of memory and the parameters alone. -/
theorem HoldsWord.congr {t u : State} {a v : Word} (h : HoldsWord t a v) (hmem : u.mem = t.mem)
    (hcfg : u.cfg = t.cfg) : HoldsWord u a v where
  accessible := by simpa only [Accessible, hcfg] using h.accessible
  written := by simpa only [wordWritten, hmem] using h.written
  word := by rw [State.wordAt_congr (s := t) (by rw [hcfg]) (by rw [hmem]) (by rw [hmem]), h.word]

/-- LM gives each selected register the word held at its place of the sequence. -/
theorem exec_lm_of_holdsWord {u : State} {rb : Reg} {mask8 : BitVec 8} {value : Reg → Word}
    (h : ∀ k q, (transferOrder mask8)[k]? = some q →
      HoldsWord u (sequenceAddress (u.readReg rb) k) (value q)) :
    ∃ v, exec (.lm rb mask8) u = .next v ∧ ∀ q ∈ transferOrder mask8, v.readReg q = value q := by
  obtain ⟨v, hexec, hvalues, -⟩ := loadMultipleResultAndFrame u rb mask8 fun k hk =>
    (h k _ (List.getElem?_eq_getElem hk)).accessible
  refine ⟨v, hexec, fun q hq => ?_⟩
  obtain ⟨k, hk⟩ := List.getElem?_of_mem hq
  rw [hvalues k q hk, (h k q hk).word]

/-- Settles O47: the LM finds at each place what the SM left there, for R0 the SM's own address. -/
theorem loadMultipleRestoresWhatStoreMultipleSaved :
    Obligations.LoadMultipleRestoresWhatStoreMultipleSaved := by
  unfold Obligations.LoadMultipleRestoresWhatStoreMultipleSaved
  intro s t u ra rb mask8 hsm hmem hcfg hbase
  have hheld : ∀ k q, (transferOrder mask8)[k]? = some q →
      HoldsWord u (sequenceAddress (u.readReg rb) k) (s.readReg q) := by
    rw [hbase]
    exact fun k q hk => (exec_sm_holdsWord hsm hk).congr hmem hcfg
  obtain ⟨v, hexec, hrestored⟩ := exec_lm_of_holdsWord hheld
  exact ⟨v, hexec, fun q _ => hrestored q, hrestored .r0⟩

end Sys2Proof.Machine

/-! SUPPORT. The conditional branches (45_branch.md): what the comparisons of BLT and BLE say as
integers, and what a branch leaves for a condition already evaluated. -/

namespace Sys2Proof.Machine

open Sys2Proof.Safety

/-! ### The comparisons (R180) -/

theorem lessThan_eq_decide (signed : Bool) (a b : Word) :
    lessThan signed a b =
      if signed then decide (a.toInt < b.toInt) else decide (a.toNat < b.toNat) := by
  rw [lessThan, BitVec.slt_eq_decide, BitVec.ult_eq_decide]

theorem lessOrEqual_eq_decide (signed : Bool) (a b : Word) :
    lessOrEqual signed a b =
      if signed then decide (a.toInt ≤ b.toInt) else decide (a.toNat ≤ b.toNat) := by
  rw [lessOrEqual, BitVec.sle_eq_decide, BitVec.ule_eq_decide]

theorem lessThan_self (signed : Bool) (a : Word) : lessThan signed a a = false := by
  cases signed <;> simp [lessThan_eq_decide]

theorem lessOrEqual_self (signed : Bool) (a : Word) : lessOrEqual signed a a = true := by
  cases signed <;> simp [lessOrEqual_eq_decide]

/-- BLT: bit 15 in just one operand flips the unsigned answer (U13). -/
theorem lessThan_true_eq_xor (a b : Word) :
    lessThan true a b = ((a.getLsbD 15 != b.getLsbD 15) ^^ lessThan false a b) := by
  have hflip : a.slt b = (a.msb != b.msb ^^ a.ult b) := BitVec.slt_eq_ult
  rwa [BitVec.msb_eq_getLsbD_last, BitVec.msb_eq_getLsbD_last] at hflip

/-- BLE: bit 15 in just one operand flips the unsigned answer (U13). -/
theorem lessOrEqual_true_eq_xor (a b : Word) :
    lessOrEqual true a b = ((a.getLsbD 15 != b.getLsbD 15) ^^ lessOrEqual false a b) := by
  have hflip : a.sle b = (a.msb != b.msb ^^ a.ule b) := BitVec.sle_eq_ule
  rwa [BitVec.msb_eq_getLsbD_last, BitVec.msb_eq_getLsbD_last] at hflip

theorem bne_xor_eq_self_iff (p q r : Bool) : ((p != q) ^^ r) = r ↔ p = q := by
  cases r <;> simp

/-- Settles O49: the two readings differ by the exclusive or with the difference of the two bits. -/
theorem comparisonReadingsDifferOnlyInBitFifteen :
    Obligations.ComparisonReadingsDifferOnlyInBitFifteen := by
  unfold Obligations.ComparisonReadingsDifferOnlyInBitFifteen
  intro a b
  rw [lessThan_true_eq_xor, lessOrEqual_true_eq_xor]
  exact ⟨bne_xor_eq_self_iff _ _ _, bne_xor_eq_self_iff _ _ _⟩

/-! ### The outcome of a branch -/

/-- What a branch leaves: the PC at its target or at the next instruction, everything else as before
(R180). -/
structure Branches (taken : Bool) (imm6 : BitVec 6) (s t : State) : Prop where
  target : taken = true → (t.pc.toNat : Int) = ((s.pc.toNat : Int) + 2 * imm6.toInt) % 65536
  goesOn : taken = false → GoesOn s t
  regs : SameRegsBut [] s t
  flags : SameFlags s t
  bytes : SameBytes s t
  cfg : t.cfg = s.cfg

theorem branches_setPc (imm6 : BitVec 6) (s : State) :
    Branches true imm6 s (s.setPc (branchTarget s.pc imm6)) where
  target _ := branchTarget_toNat s.pc imm6
  goesOn h := Bool.noConfusion h
  regs q h0 _ := State.readReg_setPc_ne s _ q h0
  flags := ⟨rfl, rfl⟩
  bytes _ := rfl
  cfg := rfl

theorem branches_advance (imm6 : BitVec 6) (s : State) : Branches false imm6 s s.advance := by
  obtain ⟨hflags, hregs, hgoesOn, hbytes, hcfg⟩ := onlyGoesOn_advance s
  exact ⟨Bool.noConfusion, fun _ => hgoesOn, hregs, hflags, hbytes, hcfg⟩

/-- The common rule of the three branches, for a condition already evaluated (R180). -/
theorem branchIf_outcome (taken : Bool) (imm6 : BitVec 6) (s : State) :
    ∃ t, branchIf taken imm6 s = .next t ∧ Branches taken imm6 s t := by
  refine ⟨_, branchIf_eq taken imm6 s, ?_⟩
  cases taken with
  | true => exact branches_setPc imm6 s
  | false => exact branches_advance imm6 s

/-! ### The three instructions (R181 to R183) -/

section
variable (s : State) (ra rb : Reg) (imm6 : BitVec 6)

theorem exec_beq_eq : exec (.beq ra rb imm6) s =
    branchIf (decide ((s.readReg ra).toNat = (s.readReg rb).toNat)) imm6 s := by
  simp only [BitVec.toNat_inj]
  rfl

theorem exec_blt_eq : exec (.blt ra rb imm6) s =
    branchIf (lessThan s.cfg.cmpSigned (s.readReg ra) (s.readReg rb)) imm6 s := rfl

theorem exec_ble_eq : exec (.ble ra rb imm6) s =
    branchIf (lessOrEqual s.cfg.cmpSigned (s.readReg ra) (s.readReg rb)) imm6 s := rfl

end

/-- Settles O48: each of the three is the common rule for its condition. -/
theorem branchTargetConditionAndFrame : Obligations.BranchTargetConditionAndFrame := by
  unfold Obligations.BranchTargetConditionAndFrame
  intro s ra rb imm6 i taken hi
  have hexec : exec i s = branchIf taken imm6 s := by
    simp only [List.mem_cons, Prod.mk.injEq, List.not_mem_nil, or_false] at hi
    rcases hi with ⟨rfl, rfl⟩ | ⟨rfl, rfl⟩ | ⟨rfl, rfl⟩
    · exact exec_beq_eq s ra rb imm6
    · rw [exec_blt_eq, lessThan_eq_decide]
    · rw [exec_ble_eq, lessOrEqual_eq_decide]
  obtain ⟨t, ht, htarget, hgoesOn, hregs, hflags, hbytes, hcfg⟩ := branchIf_outcome taken imm6 s
  exact ⟨t, hexec.trans ht, htarget, hgoesOn, hregs, hflags, hbytes, hcfg⟩

/-- Settles O50: of a value and itself, equality and less-or-equal hold and less-than does not, under
either reading. -/
theorem branchesOnOneRegister : Obligations.BranchesOnOneRegister := by
  unfold Obligations.BranchesOnOneRegister
  intro s ra imm6
  obtain ⟨t, ht, hgoes⟩ := branchIf_outcome true imm6 s
  obtain ⟨u, hu, hstays⟩ := branchIf_outcome false imm6 s
  refine ⟨⟨t, ?_, ?_, hgoes.target rfl⟩, u, ?_, hstays.goesOn rfl⟩
  · rw [exec_beq_eq, decide_eq_true rfl, ht]
  · rw [exec_ble_eq, lessOrEqual_self, ht]
  · rw [exec_blt_eq, lessThan_self, hu]

end Sys2Proof.Machine

/-! SUPPORT. The jumps (46_jump.md): what a link and a jump leave for a target already read, and why a
return through the link goes on after the call. -/

namespace Sys2Proof.Machine

open Sys2Proof.Safety

/-! ### The calls (R200, R201) -/

/-- What a jump that links into `ra` leaves: the address of the next instruction in `ra`, the PC at
the target, everything else as before. -/
structure LinksAndGoes (ra : Reg) (target : Word) (s t : State) : Prop where
  link : (t.readReg ra).toNat = (s.pc.toNat + 2) % 65536
  target : t.pc = target
  regs : SameRegsBut [ra] s t
  flags : SameFlags s t
  bytes : SameBytes s t
  cfg : t.cfg = s.cfg

/-- The common rule of JAL and JLR: the jump writes the PC only, so the link is still in its register
after it, which would not be so for R0. -/
theorem linkAndGo_outcome {ra : Reg} (hra : ra ≠ .r0) (target : Word) (s : State) :
    ∃ t, linkAndGo ra target s = .next t ∧ LinksAndGoes ra target s t := by
  refine ⟨_, linkAndGo_next.2 ⟨hra, rfl⟩, ?_⟩
  exact {
    link := by
      rw [State.readReg_setPc_ne _ _ _ hra, State.readReg_writeReg_same, State.nextPc_toNat]
    target := State.setPc_pc _ target
    regs := fun q h0 hq => by
      rw [State.readReg_setPc_ne _ _ q h0,
        State.readReg_writeReg_ne _ _ _ _ (List.mem_singleton.not.1 hq)]
    flags := ⟨State.writeReg_c s ra _, State.writeReg_z s ra _⟩
    bytes := fun a => by rw [State.setPc_mem, State.writeReg_mem]
    cfg := State.writeReg_cfg s ra _ }

/-- Settles O51: JAL is the common rule for the target counted from its own address. -/
theorem jumpAndLinkResultAndFrame : Obligations.JumpAndLinkResultAndFrame := by
  unfold Obligations.JumpAndLinkResultAndFrame
  intro s ra imm9 hra
  obtain ⟨t, ht, hlink, htarget, hregs, hflags, hbytes, hcfg⟩ :=
    linkAndGo_outcome hra (jumpTarget s.pc imm9) s
  refine ⟨t, ht, hlink, ?_, hregs, hflags, hbytes, hcfg⟩
  rw [htarget, jumpTarget_toNat]

/-- Settles O52: JLR is the common rule for the content of RB in the state before the link is
written. -/
theorem jumpAndLinkToRegisterResultAndFrame :
    Obligations.JumpAndLinkToRegisterResultAndFrame := by
  unfold Obligations.JumpAndLinkToRegisterResultAndFrame
  intro s ra rb hra
  obtain ⟨t, ht, hlink, htarget, hregs, hflags, hbytes, hcfg⟩ :=
    linkAndGo_outcome hra (s.readReg rb) s
  exact ⟨t, ht, hlink, htarget, hregs, hflags, hbytes, hcfg⟩

/-! ### The jump without a link (R202) -/

theorem exec_jri_eq (s : State) (ra : Reg) (imm9 : BitVec 9) :
    exec (.jri ra imm9) s = .next (s.setPc (jumpTarget (s.readReg ra) imm9)) := rfl

/-- Settles O53: JRI writes the PC only. -/
theorem jumpToRegisterResultAndFrame : Obligations.JumpToRegisterResultAndFrame := by
  unfold Obligations.JumpToRegisterResultAndFrame
  intro s ra imm9
  refine ⟨_, exec_jri_eq s ra imm9, ?_, fun q h0 _ => State.readReg_setPc_ne s _ q h0, ⟨rfl, rfl⟩,
    fun _ => rfl, rfl⟩
  rw [State.setPc_pc, jumpTarget_toNat]

/-! ### Calls and returns (R203) -/

theorem jumpTarget_zero (base : Word) : jumpTarget base 0#9 = base := by
  simp [jumpTarget, timesTwo, sext9]

/-- A call by either instruction leaves the address of the instruction after it in its link register;
that the call went on says that this register is not R0. -/
theorem call_link {s t : State} {link target : Reg} {imm9 : BitVec 9} {i : Instr}
    (hi : i ∈ [Instr.jal link imm9, Instr.jlr link target]) (h : exec i s = .next t) :
    (t.readReg link).toNat = (s.pc.toNat + 2) % 65536 := by
  obtain ⟨dest, hexec⟩ : ∃ dest, exec i s = linkAndGo link dest s := by
    simp only [List.mem_cons, List.not_mem_nil, or_false] at hi
    rcases hi with rfl | rfl
    · exact ⟨jumpTarget s.pc imm9, rfl⟩
    · exact ⟨s.readReg target, rfl⟩
  rw [hexec] at h
  obtain ⟨hlink, -⟩ := linkAndGo_next.1 h
  obtain ⟨t', ht', hcall⟩ := linkAndGo_outcome hlink dest s
  cases h.symm.trans ht'
  exact hcall.link

/-- A return by either instruction goes to the content of the link register; JLR reads it before it
writes its scratch register, so the two may be one. -/
theorem return_target {u : State} {link scratch : Reg} {r : Instr} (hscratch : scratch ≠ .r0)
    (hr : r ∈ [Instr.jri link 0#9, Instr.jlr scratch link]) :
    ∃ v, exec r u = .next v ∧ v.pc = u.readReg link := by
  simp only [List.mem_cons, List.not_mem_nil, or_false] at hr
  rcases hr with rfl | rfl
  · exact ⟨_, exec_jri_eq u link 0#9, jumpTarget_zero _⟩
  · obtain ⟨v, hv, hgoes⟩ := linkAndGo_outcome hscratch (u.readReg link) u
    exact ⟨v, hv, hgoes.target⟩

/-- Settles O54: the return goes to what the call wrote. -/
theorem returnGoesToTheInstructionAfterTheCall :
    Obligations.ReturnGoesToTheInstructionAfterTheCall := by
  unfold Obligations.ReturnGoesToTheInstructionAfterTheCall
  intro s t u link target scratch imm9 i r hi hcall hkept hscratch hr
  obtain ⟨v, hv, hpc⟩ := return_target (u := u) hscratch hr
  refine ⟨v, hv, ?_⟩
  rw [GoesOn, hpc, hkept, call_link hi hcall]

end Sys2Proof.Machine

/-! SUPPORT. Why a step stops (60_exceptions.md R220, R221): everything that a fetch, an instruction
and a step can refuse, said once. -/

namespace Sys2Proof.Machine

open Sys2Proof.Safety

/-! ### The refusals of a fetch (R25, R47, R72; U11) -/

/-- The four reasons for which a fetch is refused, each with its condition on the word at the PC. -/
theorem State.fetch_error {s : State} {r : Refusal} (h : s.fetch = .error r) :
    (r = .misalignedFetch ∧ s.pc.toNat % 2 = 1)
      ∨ (r = .unmappedAccess ∧ s.cfg.mapped s.pc = false)
      ∨ (r = .unwrittenRead ∧ wordWritten s s.pc = false)
      ∨ (r = .reservedEncoding ∧ reservedWord (s.wordAt s.pc)) := by
  rw [State.fetch_eq] at h
  split at h
  next hodd => cases h; exact .inl ⟨rfl, hodd⟩
  next =>
    split at h
    next hmap => cases h; exact .inr (.inl ⟨rfl, hmap⟩)
    next =>
      split at h
      next hwritten => cases h; exact .inr (.inr (.inl ⟨rfl, hwritten⟩))
      next =>
        cases hd : decode (s.wordAt s.pc) with
        | ok i => rw [hd] at h; cases h
        | error e =>
          rw [hd] at h
          cases h
          exact .inr (.inr (.inr ⟨rfl, reservedWord_of_decode hd⟩))

/-! ### The refusals of an instruction (R22, R44, R47) -/

theorem addGroup_next (k : Bool) (cz : CZ) (ra rb rc : Reg) (s : State) :
    ∃ t, addGroup k cz ra rb rc s = .next t := by
  obtain ⟨t, ht, -⟩ := addGroup_outcome s (k := k) cz ra (rb := rb) rc rfl rfl
  exact ⟨t, ht⟩

theorem nandIf_next (executes k : Bool) (ra rb rc : Reg) (s : State) :
    ∃ t, nandIf executes k ra rb rc s = .next t := by
  obtain ⟨t, ht, -⟩ := nandIf_outcome executes k ra rb rc s
  exact ⟨t, ht⟩

theorem linkAndGo_of_ne_r0 {ra : Reg} (hra : ra ≠ .r0) (target : Word) (s : State) :
    ∃ t, linkAndGo ra target s = .next t :=
  ⟨_, linkAndGo_next.2 ⟨hra, rfl⟩⟩

/-- Only an access to memory and a link into R0 can be refused: every other instruction completes. -/
theorem exec_completes {i : Instr} (hmem : touchesMemory i = false)
    (hjal : ∀ imm9, i ≠ .jal .r0 imm9) (hjlr : ∀ rb, i ≠ .jlr .r0 rb) (s : State) :
    ∃ t, exec i s = .next t := by
  cases i
  case lw | sw | lm | sm => cases hmem
  case ada | aca | awc | acw => exact ⟨_, rfl⟩
  case adc | adz | acc | acz => exact addGroup_next _ _ _ _ _ s
  case ndu | ncu => exact ⟨_, rfl⟩
  case ndc | ndz | ncc | ncz => exact nandIf_next _ _ _ _ _ s
  case adi | lli | jri => exact ⟨_, rfl⟩
  case beq | blt | ble => exact ⟨_, branchIf_eq _ _ s⟩
  case jal ra imm9 => exact linkAndGo_of_ne_r0 (fun h => hjal imm9 (h ▸ rfl)) _ s
  case jlr ra rb => exact linkAndGo_of_ne_r0 (fun h => hjlr rb (h ▸ rfl)) _ s

/-- The address of the sequence at which LM or SM is refused is one that it accesses. -/
theorem exists_mem_sequence {s : State} {base : Word} {n : Nat} {r : Refusal}
    (h : ∃ k, k < n ∧ s.accessRefusal (sequenceAddress base k) = some r) :
    ∃ a ∈ (List.range n).map fun k => sequenceAddress base k, s.accessRefusal a = some r := by
  obtain ⟨k, hk, hr⟩ := h
  exact ⟨_, List.mem_map_of_mem (List.mem_range.2 hk), hr⟩

/-- LW, SW, LM and SM are refused only by the access check at an address that they access. -/
theorem accessRefusal_of_exec_refused {i : Instr} {s : State} {r : Refusal}
    (hmem : touchesMemory i = true) (h : exec i s = .refused r) :
    ∃ a ∈ accessedBy i s, s.accessRefusal a = some r := by
  cases i
  case lw ra rb imm6 =>
    refine ⟨_, List.mem_singleton_self _, State.memRead_error_iff.1 ?_⟩
    simp only [exec, execLw] at h
    split at h <;> cases h
    assumption
  case sw ra rb imm6 =>
    have hwrite := State.memWrite_error_iff (s := s.advance).1 (finish_refused.1 h)
    exact ⟨_, List.mem_singleton_self _, hwrite⟩
  case lm ra mask8 => exact exists_mem_sequence (loadRegs_error (finish_refused.1 h))
  case sm ra mask8 =>
    exact exists_mem_sequence (storeRegs_error (t := s.advance) (finish_refused.1 h))
  all_goals cases hmem

/-- Everything for which an instruction is refused: a link into R0, or a refused access. -/
theorem exec_refused {i : Instr} {s : State} {r : Refusal} (h : exec i s = .refused r) :
    (r = .doublePcWrite ∧ ((∃ imm9, i = .jal .r0 imm9) ∨ ∃ rb, i = .jlr .r0 rb))
      ∨ ∃ a ∈ accessedBy i s, s.accessRefusal a = some r := by
  by_cases hmem : touchesMemory i = true
  · exact .inr (accessRefusal_of_exec_refused hmem h)
  · by_cases hlink : (∃ imm9, i = .jal .r0 imm9) ∨ ∃ rb, i = .jlr .r0 rb
    · have hdouble : exec i s = .refused .doublePcWrite := by
        rcases hlink with ⟨imm9, rfl⟩ | ⟨rb, rfl⟩
        · exact linkAndGo_r0 (jumpTarget s.pc imm9) s
        · exact linkAndGo_r0 (s.readReg rb) s
      cases h.symm.trans hdouble
      exact .inl ⟨rfl, hlink⟩
    · obtain ⟨hjal, hjlr⟩ := not_or.1 hlink
      obtain ⟨t, ht⟩ := exec_completes (Bool.eq_false_iff.2 hmem) (not_exists.1 hjal)
        (not_exists.1 hjlr) s
      cases h.symm.trans ht

/-! ### The stops of a step (R220, R221) -/

/-- A step is refused by its fetch or by the instruction it fetched. -/
theorem step_refused_iff {s : State} {r : Refusal} :
    step s = .refused r ↔
      s.fetch = .error r ∨ ∃ i, s.fetch = .ok i ∧ exec i s = .refused r := by
  simp only [step]
  cases s.fetch <;> simp

/-- Settles O10: `Fault` has no value; a refused step is a refused fetch or a refused instruction,
and the access check has two reasons. -/
theorem stepStopsOnlyAsListed : Obligations.StepStopsOnlyAsListed := by
  unfold Obligations.StepStopsOnlyAsListed
  refine ⟨fun _ f => (nomatch f), fun s r h => ?_⟩
  rcases step_refused_iff.1 h with hfetch | ⟨i, hfetch, hexec⟩
  · rcases State.fetch_error hfetch with hodd | hmap | hwritten | hreserved
    · exact .inl hodd
    · exact .inr (.inl hmap)
    · exact .inr (.inr (.inl hwritten))
    · exact .inr (.inr (.inr (.inl hreserved)))
  · obtain ⟨-, -, hd⟩ := State.fetch_ok_iff.1 hfetch
    refine .inr (.inr (.inr (.inr ⟨i, hd, ?_⟩)))
    rcases exec_refused hexec with hdouble | ⟨a, ha, hr⟩
    · exact .inl hdouble
    · rcases State.accessRefusal_some hr with ⟨rfl, hodd⟩ | ⟨rfl, -, hmap⟩
      · exact .inr (.inl ⟨rfl, a, ha, hodd⟩)
      · exact .inr (.inr ⟨rfl, a, ha, hmap⟩)

end Sys2Proof.Machine

/-! SUPPORT. The words that the host loads (70_reset_and_hazards.md R243), and the state at reset
(10_state.md section 6). -/

namespace Sys2Proof.Machine

open Sys2Proof.Safety

/-! ### The host's load (R243) -/

/-- An opcode-table word of full width is the word itself. -/
theorem tableWord_toNat (w : Word) : tableWord 16 w.toNat = w := by
  rw [tableWord, Nat.mod_eq_of_lt w.isLt, BitVec.ofNat_toNat, BitVec.setWidth_eq]

/-- Settles O8: `withFetchWord` places the same word at the PC as `placeWord` does, and a word placed
at the PC runs next. -/
theorem placedWordIsTheNextInstruction : Obligations.PlacedWordIsTheNextInstruction := by
  unfold Obligations.PlacedWordIsTheNextInstruction
  intro s w i heven hmapped hdecode
  have hstep := step_placeWord_pc ⟨heven, hmapped⟩ hdecode
  refine ⟨hstep, ?_⟩
  rwa [State.withFetchWord, tableWord_toNat]

theorem placeWord_stateInv {s : State} {a : Word} (w : Word) (hi : StateInv s)
    (ha : a.toNat % 2 = 0) : StateInv (s.placeWord a w) :=
  ⟨Memory.wf_writeWord _ w hi.1 ha, Memory.whole_writeWord _ w hi.2 ha⟩

/-- Settles O15, by induction on the image: each word of it is written whole. -/
theorem hostLoadKeepsTheInvariant : Obligations.HostLoadKeepsTheInvariant := by
  unfold Obligations.HostLoadKeepsTheInvariant
  intro s image hi heven
  induction image generalizing s with
  | nil => exact hi
  | cons p rest ih =>
    obtain ⟨hp, hrest⟩ := List.forall_mem_cons.1 heven
    exact ih (s.placeWord p.1 p.2) (placeWord_stateInv p.2 hi hp) hrest

/-! ### The values at reset -/

/-- The suggested MEM_MAP runs to 0xFFFE, the last even address. -/
theorem resetConfig_mapped_of_even {a : Word} (ha : a.toNat % 2 = 0) :
    resetConfig.mapped a = true := by
  have hbound := a.isLt
  have hfirst : 0x0000#16 ≤ a := by rw [BitVec.le_def]; exact Nat.zero_le a.toNat
  have hlast : a ≤ 0xFFFE#16 := by rw [BitVec.le_def, BitVec.toNat_ofNat]; omega
  simp [Config.mapped, resetConfig, hfirst, hlast]

/-- Settles O56 with the values that `reset` writes out. -/
theorem resetValuesOfThisModel : Obligations.ResetValuesOfThisModel := by
  unfold Obligations.ResetValuesOfThisModel
  refine ⟨rfl, fun q h0 => ?_, rfl, rfl, rfl, by decide, fun _ => resetConfig_mapped_of_even⟩
  cases q
  case r0 => exact absurd rfl h0
  all_goals rfl

end Sys2Proof.Machine

/-! SUPPORT. The end of a run (70_reset_and_hazards.md R242): the self-jumps with which programs end,
and a run up to HALT_PC as steps of the machine. -/

namespace Sys2Proof.Machine

open Sys2Proof.Safety

/-! ### Self-jumps (R181, R200, R202) -/

theorem branchTarget_zero (pc : Word) : branchTarget pc 0#6 = pc := by
  simp [branchTarget, timesTwo, sext6]

theorem State.setPc_self (s : State) : s.setPc s.pc = s := rfl

/-- Settles O57: with immediate 0 the target is the base, which for all three is the PC. -/
theorem selfJumpsChangeNothing : Obligations.SelfJumpsChangeNothing := by
  unfold Obligations.SelfJumpsChangeNothing
  intro s ra rb hrb
  refine ⟨?_, ?_, _, exec_jal_next.2 ⟨hrb, rfl⟩, ?_, ?_⟩
  · rw [exec_beq_eq, decide_eq_true rfl, branchIf_eq, if_pos rfl, branchTarget_zero,
      State.setPc_self]
  · rw [exec_jri_eq, State.readReg_r0, jumpTarget_zero, State.setPc_self]
  · rw [State.setPc_pc, jumpTarget_zero]
  · rw [State.readReg_setPc_ne _ _ rb hrb, State.readReg_writeReg_same, State.nextPc]

/-! ### Runs of the machine -/

/-- A run ends in the refusal of its first step. -/
theorem core_run_succ_of_refused {s : State} {r : Refusal} (k : Nat) (h : step s = .refused r) :
    core.run (k + 1) s = .refused r := by
  show Host.Core.run core (k + 1) s = _
  simp only [Host.Core.run]
  rw [show core.step s = .refused r from h]

/-- A run of one more step reaches what the run from the first step's next state reaches. -/
theorem core_run_succ_next_iff {k : Nat} {s t : State} :
    core.run (k + 1) s = .next t ↔ ∃ u, step s = .next u ∧ core.run k u = .next t := by
  constructor
  · intro h
    cases hstep : step s with
    | next u => exact ⟨u, rfl, (core_run_succ k hstep).symm.trans h⟩
    | refused r => cases h.symm.trans (core_run_succ_of_refused k hstep)
    | fault f => cases f
  · rintro ⟨u, hstep, hrun⟩
    exact (core_run_succ k hstep).trans hrun

/-- No run changes a parameter (R6). -/
theorem core_run_cfg {k : Nat} {s t : State} (h : core.run k s = .next t) : t.cfg = s.cfg := by
  induction k generalizing s with
  | zero => cases h; rfl
  | succ k ih =>
    obtain ⟨u, hstep, hrun⟩ := core_run_succ_next_iff.1 h
    rw [ih hrun, stepKeepsTheParameters s u hstep]

/-! ### The run to HALT_PC (R242) -/

theorem atHalt_iff {s : State} : atHalt s = true ↔ s.cfg.haltPc = some s.pc :=
  decide_eq_true_iff

theorem runToHalt_of_atHalt {s : State} (n : Nat) (h : atHalt s = true) :
    runToHalt n s = .ended s := by
  cases n <;> exact if_pos h

theorem runToHalt_succ_of_next {s u : State} (n : Nat) (h : ¬ atHalt s = true)
    (hstep : step s = .next u) : runToHalt (n + 1) s = runToHalt n u := by
  rw [runToHalt, if_neg h, hstep]

/-- A run has ended because it stands at HALT_PC, or because it took a step and ended after it. -/
theorem runToHalt_ended_cases {n : Nat} {s t : State} (h : runToHalt n s = .ended t) :
    (atHalt s = true ∧ t = s)
      ∨ ∃ m u, n = m + 1 ∧ ¬ atHalt s = true ∧ step s = .next u ∧ runToHalt m u = .ended t := by
  by_cases hs : atHalt s = true
  · rw [runToHalt_of_atHalt n hs] at h
    cases h
    exact .inl ⟨hs, rfl⟩
  · cases n with
    | zero => rw [runToHalt, if_neg hs] at h; cases h
    | succ m =>
      cases hstep : step s with
      | next u =>
        rw [runToHalt_succ_of_next m hs hstep] at h
        exact .inr ⟨m, u, rfl, hs, rfl, h⟩
      | refused r => rw [runToHalt, if_neg hs, hstep] at h; cases h
      | fault f => cases f

/-- After `k` steps the run from `s` stands for the first time at HALT_PC, in the state `t`. -/
structure FirstArrival (k : Nat) (s t : State) : Prop where
  run : core.run k s = .next t
  atHalt : t.cfg.haltPc = some t.pc
  notBefore : ∀ (j : Nat) (u : State), j < k → core.run j s = .next u → u.cfg.haltPc ≠ some u.pc

theorem FirstArrival.zero {s : State} (h : s.cfg.haltPc = some s.pc) : FirstArrival 0 s s :=
  ⟨rfl, h, fun _ _ hj => absurd hj (Nat.not_lt_zero _)⟩

/-- An arrival seen one step earlier, from a state that is not at HALT_PC itself. -/
theorem FirstArrival.succ {k : Nat} {s u t : State} (hs : s.cfg.haltPc ≠ some s.pc)
    (hstep : step s = .next u) (h : FirstArrival k u t) : FirstArrival (k + 1) s t where
  run := core_run_succ_next_iff.2 ⟨u, hstep, h.run⟩
  atHalt := h.atHalt
  notBefore j v hj hrun := by
    cases j with
    | zero => cases hrun; exact hs
    | succ j => exact h.notBefore j v (Nat.lt_of_succ_lt_succ hj) ((core_run_succ j hstep).symm.trans hrun)

/-- A run that has ended stands where it first arrived at HALT_PC. -/
theorem firstArrival_of_runToHalt {n : Nat} {s t : State} (h : runToHalt n s = .ended t) :
    ∃ k, k ≤ n ∧ FirstArrival k s t := by
  induction n generalizing s with
  | zero =>
    rcases runToHalt_ended_cases h with ⟨hs, rfl⟩ | ⟨m, u, hn, -⟩
    · exact ⟨0, Nat.le_refl 0, .zero (atHalt_iff.1 hs)⟩
    · cases hn
  | succ n ih =>
    rcases runToHalt_ended_cases h with ⟨hs, rfl⟩ | ⟨m, u, hn, hs, hstep, hend⟩
    · exact ⟨0, Nat.zero_le _, .zero (atHalt_iff.1 hs)⟩
    · cases hn
      obtain ⟨k, hk, harrival⟩ := ih hend
      exact ⟨k + 1, Nat.succ_le_succ hk, harrival.succ (atHalt_iff.not.1 hs) hstep⟩

/-- A run that arrives at HALT_PC within its bound ends, there or before. -/
theorem runToHalt_ends_of_arrival {n k : Nat} {s t : State} (hk : k ≤ n)
    (hrun : core.run k s = .next t) (ht : atHalt t = true) : ∃ u, runToHalt n s = .ended u := by
  induction k generalizing n s with
  | zero => cases hrun; exact ⟨_, runToHalt_of_atHalt n ht⟩
  | succ k ih =>
    by_cases hs : atHalt s = true
    · exact ⟨s, runToHalt_of_atHalt n hs⟩
    · obtain ⟨v, hstep, hrest⟩ := core_run_succ_next_iff.1 hrun
      obtain ⟨m, rfl⟩ := Nat.exists_eq_add_of_le' hk
      obtain ⟨u, hu⟩ := ih (n := m + k) (Nat.le_add_left k m) hrest
      exact ⟨u, (runToHalt_succ_of_next (m + k) hs hstep).trans hu⟩

/-- Settles O58: an ended run is a first arrival, an arrival ends the run, and without a HALT_PC,
which no step supplies, there is no arrival. -/
theorem runEndsAtFirstArrivalAtHaltPc : Obligations.RunEndsAtFirstArrivalAtHaltPc := by
  unfold Obligations.RunEndsAtFirstArrivalAtHaltPc
  refine ⟨fun n s t h => ?_, fun n k s t hk hrun ht => ?_, fun n s t hnone h => ?_⟩
  · obtain ⟨k, hk, hrun, ht, hfirst⟩ := firstArrival_of_runToHalt h
    exact ⟨k, hk, hrun, ht, hfirst⟩
  · exact runToHalt_ends_of_arrival hk hrun (atHalt_iff.2 ht)
  · obtain ⟨k, -, hrun, ht, -⟩ := firstArrival_of_runToHalt h
    rw [core_run_cfg hrun, hnone] at ht
    cases ht

end Sys2Proof.Machine
